-- ==== Sys2Proof/Word.lean ====
section
/-! DEFINITION. The word types of the machine (00_scope.md R7, R8). -/

namespace Sys2Proof

/-- One memory cell, one register, one operand byte: 8 unsigned bits (R5, R7). -/
abbrev Byte := BitVec 8

/-- The program counter: 9 unsigned bits, so that 256 can be held (R8). -/
abbrev PcWord := BitVec 9

/-- A register number that has passed the range check, `0..7` (R6, R15). -/
abbrev RegId := Fin 8

end Sys2Proof
end

