-- ==== Sys2Proof/Syntax.lean ====
section
/-! DEFINITION. The instructions of the machine as data (30_encoding.md R50, R51, R54). -/

namespace Sys2Proof

/-- The 13 mnemonics of the opcode map (R54). -/
inductive Opcode where
  | hlt | ldi | prn | add | mul | cmp | push | pop | call | ret | jmp | jeq | jne
deriving DecidableEq, Repr

/-- The four formats (R51): no operand, one register, two registers, a register and an immediate. -/
inductive Format where
  | n | r | rr | ri
deriving DecidableEq, Repr

/-- One constructor per row of the opcode table. A register field is the whole operand byte (R52): a value
of 8 or more is an instruction the program can hold, and running it is a fault (R64). -/
inductive Instr where
  | hlt
  | ldi (r imm : Byte)
  | prn (r : Byte)
  | add (a b : Byte)
  | mul (a b : Byte)
  | cmp (a b : Byte)
  | push (r : Byte)
  | pop (r : Byte)
  | call (r : Byte)
  | ret
  | jmp (r : Byte)
  | jeq (r : Byte)
  | jne (r : Byte)
deriving DecidableEq, Repr

end Sys2Proof
end

