-- ==== Sys2Proof/WellFormed.lean ====
section
/-! DEFINITION. Which instructions name only registers that exist (30_encoding.md R52). -/

namespace Sys2Proof

/-- A register-index byte is in range when it is at most 7 (R52). -/
def regFieldOk (f : Byte) : Bool := f.toNat < 8

/-- Every register field of the instruction is in range; an immediate may be any byte (R53). -/
def Instr.wellFormed : Instr → Bool
  | .hlt => true
  | .ldi r _ => regFieldOk r
  | .prn r => regFieldOk r
  | .add a b => regFieldOk a && regFieldOk b
  | .mul a b => regFieldOk a && regFieldOk b
  | .cmp a b => regFieldOk a && regFieldOk b
  | .push r => regFieldOk r
  | .pop r => regFieldOk r
  | .call r => regFieldOk r
  | .ret => true
  | .jmp r => regFieldOk r
  | .jeq r => regFieldOk r
  | .jne r => regFieldOk r

end Sys2Proof
end

