-- ==== Sys2Proof/Decode.lean ====
section
/-! DEFINITION. The opcode map, the decoder and the encoder (30_encoding.md R50 to R57). -/

namespace Sys2Proof

/-- The opcode map (R54): the byte of each mnemonic. Its values are the spec's decision D1; log entry 1. -/
def Opcode.toByte : Opcode → Byte
  | .hlt => 0x01
  | .ldi => 0x82
  | .prn => 0x47
  | .add => 0xA0
  | .mul => 0xA2
  | .cmp => 0xA7
  | .push => 0x45
  | .pop => 0x46
  | .call => 0x50
  | .ret => 0x11
  | .jmp => 0x54
  | .jeq => 0x55
  | .jne => 0x56

/-- The format column of the opcode map (R54, R51). -/
def Opcode.format : Opcode → Format
  | .hlt => .n
  | .ldi => .ri
  | .prn => .r
  | .add => .rr
  | .mul => .rr
  | .cmp => .rr
  | .push => .r
  | .pop => .r
  | .call => .r
  | .ret => .n
  | .jmp => .r
  | .jeq => .r
  | .jne => .r

/-- The length a format has, opcode byte included (R51). -/
def Format.length : Format → Nat
  | .n => 1
  | .r => 2
  | .rr => 3
  | .ri => 3

/-- The opcode alone fixes the instruction's length, 1, 2 or 3 bytes (R50). -/
def Opcode.length (o : Opcode) : Nat := o.format.length

/-- Every row of the opcode map, in the order of the table. -/
def Opcode.all : List Opcode :=
  [.hlt, .ldi, .prn, .add, .mul, .cmp, .push, .pop, .call, .ret, .jmp, .jeq, .jne]

/-- `decode(op)` of R62: the row whose byte equals the WHOLE opcode byte, and none for the 243 bytes the map
lacks (R55, R56). -/
def Opcode.ofByte (op : Byte) : Option Opcode := Opcode.all.find? (fun o => o.toByte == op)

/-- The instruction an opcode makes of its operand bytes 1 and 2 (R51); a byte the format does not have is not
looked at. -/
def Opcode.assemble (o : Opcode) (f1 f2 : Byte) : Instr :=
  match o with
  | .hlt => .hlt
  | .ldi => .ldi f1 f2
  | .prn => .prn f1
  | .add => .add f1 f2
  | .mul => .mul f1 f2
  | .cmp => .cmp f1 f2
  | .push => .push f1
  | .pop => .pop f1
  | .call => .call f1
  | .ret => .ret
  | .jmp => .jmp f1
  | .jeq => .jeq f1
  | .jne => .jne f1

/-- Why bytes are no instruction. -/
inductive DecodeError where
  /-- There is no byte to decode. -/
  | noOpcode
  /-- The opcode byte has no row in the opcode map (R56). -/
  | unknownOpcode (op : Byte)
  /-- The bytes end before the instruction's last operand (R57). -/
  | missingOperand (o : Opcode)
deriving DecidableEq, Repr

/-- The decoder: total on any bytes; the instruction at their head and the bytes after it, or a rejection by
name (R55, R57). -/
def decode : List Byte → Except DecodeError (Instr × List Byte)
  | [] => .error .noOpcode
  | op :: rest =>
    match Opcode.ofByte op with
    | none => .error (.unknownOpcode op)
    | some o =>
      match o.length, rest with
      | 1, rest => .ok (o.assemble 0 0, rest)
      | 2, f1 :: rest => .ok (o.assemble f1 0, rest)
      | 3, f1 :: f2 :: rest => .ok (o.assemble f1 f2, rest)
      | _, _ => .error (.missingOperand o)

/-- The opcode an instruction is a row of. -/
def Instr.opcode : Instr → Opcode
  | .hlt => .hlt
  | .ldi _ _ => .ldi
  | .prn _ => .prn
  | .add _ _ => .add
  | .mul _ _ => .mul
  | .cmp _ _ => .cmp
  | .push _ => .push
  | .pop _ => .pop
  | .call _ => .call
  | .ret => .ret
  | .jmp _ => .jmp
  | .jeq _ => .jeq
  | .jne _ => .jne

/-- The operand bytes of an instruction, in address order (R51). -/
def Instr.operandBytes : Instr → List Byte
  | .hlt => []
  | .ldi r imm => [r, imm]
  | .prn r => [r]
  | .add a b => [a, b]
  | .mul a b => [a, b]
  | .cmp a b => [a, b]
  | .push r => [r]
  | .pop r => [r]
  | .call r => [r]
  | .ret => []
  | .jmp r => [r]
  | .jeq r => [r]
  | .jne r => [r]

/-- The encoder: the opcode byte, then the operand bytes (R51). -/
def encode (i : Instr) : List Byte := i.opcode.toByte :: i.operandBytes

/-- The bytes of a table word: bit 0 is the least significant bit of the first byte, byte `n` is at the
address `n` above it (R51), and every bit from `nbits` up is 0. Three bytes, the longest instruction. -/
def tableWordBytes (nbits w : Nat) : List Byte :=
  let v := w % 2 ^ nbits
  [BitVec.ofNat 8 v, BitVec.ofNat 8 (v / 256), BitVec.ofNat 8 (v / 65536)]

/-- The instruction the decoder reads from a word of spec/opcode_table.json. -/
def decodeTableWord (nbits w : Nat) : Option Instr :=
  match decode (tableWordBytes nbits w) with
  | .ok (i, _) => some i
  | .error _ => none

end Sys2Proof
end

