-- ==== Sys2Proof/Config.lean ====
section
/-! DEFINITION. What is fixed for the machine, and the values the spec leaves open (00_scope.md R5 to R13). -/

namespace Sys2Proof

/-- `MEM_SIZE = 256` (R5). -/
abbrev Config.memSize : Nat := 256

/-- `SP_INDEX = 7`: the slot of the register file that is the stack pointer (R9). -/
abbrev Config.spIndex : RegId := 7

/-- `SP_RESET = 255` (R10). -/
abbrev Config.spReset : Byte := 255

/-- `INIT_MEM`, keyed by address: the byte a cell holds that neither the loader nor an instruction has
written (R12, R107). A free value: nothing in Lean can evaluate it, so a claim holds for every content.
Log entry 3. -/
opaque Config.initMem : Nat → Byte

/-- A number that is not zero: `pred + 1`, or its negation. -/
inductive NonzeroInt where
  | positive (pred : Nat)
  | negative (pred : Nat)
deriving DecidableEq, Repr, Inhabited

/-- The number a `NonzeroInt` stands for. -/
def NonzeroInt.toInt : NonzeroInt → Int
  | .positive n => (n : Int) + 1
  | .negative n => -((n : Int) + 1)

/-- `FAULT_EXIT_STATUS`: all the spec says is that it is not 0 (R13), so it is a free value of a type
without 0. Log entry 11. -/
opaque Config.faultExitStatus : NonzeroInt

end Sys2Proof
end

