-- ==== Sys2Proof/Machine/State.lean ====
section
/-! DEFINITION. The state of the machine, the reasons a step can stop, and the state after reset (10_state.md). -/

namespace Sys2Proof.Machine

/-- The comparison flag `eq`, three values (R28). -/
inductive CompareFlag where
  | unset | isTrue | isFalse
deriving DecidableEq, Repr

/-- The run state `status` (R29). -/
inductive RunStatus where
  | idle | running | halted | faulted
deriving DecidableEq, Repr

/-- The sub-kind `info.where` of an OutOfBoundsAccess (R92). -/
inductive AccessKind where
  | mem | reg | spovf | retaddr
deriving DecidableEq, Repr

/-- The five fault kinds (R92). -/
inductive FaultKind where
  | unknownInstruction | outOfBoundsAccess | unsupportedALUOperation | uninitializedRegister
  | unsetComparisonFlag
deriving DecidableEq, Repr

/-- What a fault records beside its kind (R93, R94, R96). -/
inductive FaultInfo where
  | nothing
  | opcode (op : Byte)
  | access (place : AccessKind) (value : Int)
  | register (i : RegId)
deriving DecidableEq, Repr

/-- The fault record `(kind, code, pc, info)` (R32, R98). -/
structure FaultRecord where
  kind : FaultKind
  code : Nat
  pc : PcWord
  info : FaultInfo
deriving DecidableEq, Repr

/-- What an instruction raises: `E(info)` of R20 and R98, the spec's own fatal errors. The machine TAKES one
(`Machine.takeFault`): it is a next state, not an outcome `fault`. -/
inductive FaultCause where
  /-- The opcode byte is not in the map (R93). -/
  | unknownInstruction (op : Byte)
  /-- An address, a register index, a stack pointer or a return address is out of range (R94). -/
  | outOfBounds (place : AccessKind) (value : Int)
  /-- An ALU operation code is not recognised (R95); the ALU's code is a closed type, so nothing raises it
  (R74). -/
  | unsupportedALUOperation
  /-- A register that nothing has written since reset is read (R96). -/
  | uninitializedRegister (i : RegId)
  /-- JEQ or JNE before any CMP (R97). -/
  | unsetComparisonFlag
deriving DecidableEq, Repr

/-- Memory: the cells that have been written, as address and byte, addresses strictly rising (20_memory.md
R36). An address that is not listed holds its `INIT_MEM` byte. Log entry 3. -/
abbrev Memory := List Host.Cell

/-- The machine state: the tuple of 10_state.md, and nothing else. -/
structure State where
  /-- `x[0]` to `x[7]`; `x[7]` is the stack pointer (R22, R23). -/
  regs : Vector Byte 8
  /-- `written[i]`: some value has been written to `x[i]` since reset (R25). -/
  written : Vector Bool 8
  /-- The address of the executing instruction's opcode byte (R26). -/
  pc : PcWord
  /-- The comparison flag (R28). -/
  eq : CompareFlag
  /-- The run state (R29). -/
  status : RunStatus
  /-- The output trace: one byte per completed PRN, oldest first (R31). -/
  out : List Byte
  /-- The fault record, once a fault has been raised (R32). -/
  fault : Option FaultRecord
  /-- The 256 cells (R36). -/
  mem : Memory
deriving DecidableEq, Repr

/-- Why a step would stop with an outcome `fault`. There is NO such reason on this machine: every fatal error of
60_exceptions.md is taken as a next state (R98), and a running step is always defined (R66), so this type has
no constructor, nobody raises it, and that is safe. -/
inductive Fault where
deriving DecidableEq, Repr

/-- Why something is refused. -/
inductive Refusal where
  /-- An arm of `exec` without a meaning; no arm is. Raised by nobody. Safe. -/
  | notModelled (mnemonic : String)
  /-- Raised by the loader's write (`loadImage`) when the machine is not Idle: the host has no such move (R112).
  Safe. -/
  | loadOutsideIdle
  /-- Raised by the loader's write when the image is longer than the memory (R12, `k <= 256`). Safe. -/
  | imageTooLong
  /-- Raised by the host's reads (`hostRead`) while the machine is Idle or Running: the host has no access then
  (R112). Safe. -/
  | readBeforeStop
  /-- Raised by the host's read of the fault record (`hostFault`) in a state other than Faulted (R112). Safe. -/
  | noFaultToRead
deriving DecidableEq, Repr

/-- The machine right after reset (R35, R106): Idle, before the loader and before `run`. R0 to R6 hold NO value
(`written` is false and every read of one faults, R96); the zero standing in `regs` for them is a DESIGN
CHOICE, log entry 2. -/
def State.reset : State :=
  { regs := #v[0, 0, 0, 0, 0, 0, 0, Config.spReset]
    written := #v[false, false, false, false, false, false, false, true]
    pc := 0
    eq := .unset
    status := .idle
    out := []
    fault := none
    mem := [] }

end Sys2Proof.Machine
end

