-- ==== Sys2Proof/Machine/Memory.lean ====
section
/-! DEFINITION. The 256 cells as a list in canonical form (20_memory.md). -/

namespace Sys2Proof.Machine

/-- The byte listed for an address, if one is. -/
def Memory.lookup : Memory → Nat → Option Byte
  | [], _ => none
  | (b, v) :: m, a => if b = a then some v else Memory.lookup m a

/-- What an unlisted address reads as: its `INIT_MEM` byte, a free value (R12, R107). -/
def Memory.unlisted (a : Nat) : Byte := Config.initMem a

/-- The byte a cell holds. -/
def Memory.read (m : Memory) (a : Nat) : Byte := (m.lookup a).getD (Memory.unlisted a)

/-- The memory with one cell changed; addresses stay in rising order. -/
def Memory.write : Memory → Nat → Byte → Memory
  | [], a, v => [(a, v)]
  | (b, w) :: m, a, v =>
    if a < b then (a, v) :: (b, w) :: m
    else if a = b then (a, v) :: m
    else (b, w) :: Memory.write m a v

/-- Bytes deposited at rising addresses from `a` on; a byte whose address does not exist is dropped. -/
def Memory.deposit : Memory → Nat → List Byte → Memory
  | m, _, [] => m
  | m, a, b :: bs =>
    Memory.deposit (if a < Config.memSize then m.write a b else m) (a + 1) bs

/-- Addresses rise strictly from `lo` on and exist. -/
def Memory.wfFrom : Nat → Memory → Bool
  | _, [] => true
  | lo, (a, _) :: m => decide (lo ≤ a) && decide (a < Config.memSize) && Memory.wfFrom (a + 1) m

/-- The canonical form: addresses strictly rising, each below 256. -/
def Memory.wf (m : Memory) : Bool := Memory.wfFrom 0 m

/-- All bytes from an address up to the last cell, as the fetch unit would meet them. -/
def Memory.bytesFrom (m : Memory) (a : Nat) : List Byte :=
  (List.range (Config.memSize - a)).map (fun k => m.read (a + k))

end Sys2Proof.Machine
end

