-- ==== Sys2Proof/Machine/Ops.lean ====
section
/-! DEFINITION. The named operations over registers and memory, the stack-pointer logic, and taking a fault
(00_scope.md R14 to R21; 43_stack.md R79; 60_exceptions.md R98). -/

namespace Sys2Proof.Machine

/-! ### Plain writes -/

/-- `x[i] <- v`; it also sets `written[i]` (R20, R25). -/
def State.writeReg (s : State) (i : RegId) (v : Byte) : State :=
  { s with regs := s.regs.set i v, written := s.written.set i true }

/-- `pc <- target` (R20). -/
def State.setPc (s : State) (target : PcWord) : State := { s with pc := target }

/-- `pc <- pc + len` (R26). -/
def State.advance (s : State) (len : Nat) : State := s.setPc (s.pc + BitVec.ofNat 9 len)

/-- `eq <- f` (R20). -/
def State.setFlag (s : State) (f : CompareFlag) : State := { s with eq := f }

/-- `status <- st` (R20). -/
def State.setStatus (s : State) (st : RunStatus) : State := { s with status := st }

/-- `emit(v)`: append `Print(v)` to the output trace (R17, R20). -/
def State.emit (s : State) (v : Byte) : State := { s with out := s.out ++ [v] }

/-- The state with one memory byte changed. -/
def State.setByte (s : State) (a : Nat) (v : Byte) : State := { s with mem := s.mem.write a v }

/-- The byte at an address: the model's read of one byte. -/
def State.byteAt (s : State) (a : Nat) : Byte := s.mem.read a

/-- The value a register holds: none if nothing has written it since reset (R25). -/
def registerValue (s : State) (i : RegId) : Option Byte := if s.written[i] then some s.regs[i] else none

/-! ### Reads and writes that can raise -/

/-- `x[i]`: the register's value, or UninitializedRegister(i) (R20, R96). -/
def readReg (s : State) (i : RegId) : Except FaultCause Byte :=
  if s.written[i] then .ok s.regs[i] else .error (.uninitializedRegister i)

/-- `MemRead(addr, 1)` (R14, R20): the address is neither reduced nor clamped (R39). -/
def memRead (s : State) (addr : Int) : Except FaultCause Byte :=
  if 0 ≤ addr ∧ addr < Config.memSize then .ok (s.byteAt addr.toNat)
  else .error (.outOfBounds .mem addr)

/-- `MemWrite(addr, 1, v)` (R14, R20). -/
def memWrite (s : State) (addr : Int) (v : Byte) : Except FaultCause State :=
  if 0 ≤ addr ∧ addr < Config.memSize then .ok (s.setByte addr.toNat v)
  else .error (.outOfBounds .mem addr)

/-! ### The stack-pointer logic (R79) -/

/-- `SP - 1` as an integer, -1 to 254: the address a push stores to (R38, R82). -/
def pushAddress (sp : Byte) : Int := (sp.toNat : Int) - 1

/-- `SP + 1` as an integer, 1 to 256: the stack pointer after a pop (R83). -/
def popPointer (sp : Byte) : Int := (sp.toNat : Int) + 1

/-- `n <- SP - 1; if n < 0: raise OutOfBoundsAccess(MEM, n); SP <- n` (R79, R82, R87). -/
def decrementSp (s : State) : Except FaultCause State := do
  let sp ← readReg s Config.spIndex
  let n := pushAddress sp
  if n < 0 then .error (.outOfBounds .mem n)
  else .ok (s.writeReg Config.spIndex (BitVec.ofInt 8 n))

/-- `n <- SP + 1; if n > 255: raise OutOfBoundsAccess(SPOVF, n); SP <- n` (R79, R83, R88). -/
def incrementSp (s : State) : Except FaultCause State := do
  let sp ← readReg s Config.spIndex
  let n := popPointer sp
  if n > 255 then .error (.outOfBounds .spovf n)
  else .ok (s.writeReg Config.spIndex (BitVec.ofInt 8 n))

/-- `MemWrite(SP, 1, v)` (R82, R87). -/
def storeAtSp (s : State) (v : Byte) : Except FaultCause State := do
  let sp ← readReg s Config.spIndex
  memWrite s sp.toNat v

/-- `MemRead(SP, 1)` (R83, R88). -/
def loadAtSp (s : State) : Except FaultCause Byte := do
  let sp ← readReg s Config.spIndex
  memRead s sp.toNat

/-- `ra <- pc + 2; if ra > 255: raise OutOfBoundsAccess(RETADDR, ra)` (R87). -/
def returnAddress (s : State) : Except FaultCause Byte :=
  if s.pc.toNat + 2 > 255 then .error (.outOfBounds .retaddr ((s.pc.toNat : Int) + 2))
  else .ok (BitVec.ofNat 8 (s.pc.toNat + 2))

/-! ### Jumping -/

/-- An 8-bit target as a program counter value, 0 to 255 (R27, R84). -/
def pcOfByte (t : Byte) : PcWord := t.setWidth 9

/-- `t <- x[r]; pc <- t` (R87, R89). -/
def jumpToReg (s : State) (r : RegId) : Except FaultCause State := do
  let t ← readReg s r
  .ok (s.setPc (pcOfByte t))

/-! ### Taking a fault (R98) -/

/-- The kind column of R92. -/
def FaultCause.kind : FaultCause → FaultKind
  | .unknownInstruction _ => .unknownInstruction
  | .outOfBounds _ _ => .outOfBoundsAccess
  | .unsupportedALUOperation => .unsupportedALUOperation
  | .uninitializedRegister _ => .uninitializedRegister
  | .unsetComparisonFlag => .unsetComparisonFlag

/-- The code column of R92. -/
def FaultKind.code : FaultKind → Nat
  | .unknownInstruction => 1
  | .outOfBoundsAccess => 2
  | .unsupportedALUOperation => 3
  | .uninitializedRegister => 4
  | .unsetComparisonFlag => 5

/-- What the record's `info` is (R93, R94, R96). -/
def FaultCause.info : FaultCause → FaultInfo
  | .unknownInstruction op => .opcode op
  | .outOfBounds place value => .access place value
  | .unsupportedALUOperation => .nothing
  | .uninitializedRegister i => .register i
  | .unsetComparisonFlag => .nothing

/-- The record of a fault raised by the instruction at `pc` (R98). -/
def FaultCause.recordAt (c : FaultCause) (pc : PcWord) : FaultRecord :=
  { kind := c.kind, code := c.kind.code, pc := pc, info := c.info }

/-- Taking a fault: `status <- Faulted`, the fault record, and nothing else (R98). There is no return from it
(R100). -/
def takeFault (c : FaultCause) (s : State) : State :=
  { s with status := .faulted, fault := some (c.recordAt s.pc) }

/-- The commit rule (R21): pseudocode that ends makes its working copy the new state; pseudocode that raises is
discarded whole, and the fault is taken in the state before it. -/
def commit (s : State) (body : Except FaultCause State) : Host.Outcome State Fault Refusal :=
  match body with
  | .ok t => .next t
  | .error c => .next (takeFault c s)

/-- What the machine does while it is not Running: it takes no step and nothing changes (R66, R30). Log entry
5. -/
def takeNoStep (s : State) : Host.Outcome State Fault Refusal := .next s

end Sys2Proof.Machine
end

