-- ==== Sys2Proof/Machine/Flags.lean ====
section
/-! DEFINITION. The comparison flag: how CMP computes it and how JEQ and JNE test it (42_alu.md R78;
44_control_transfer.md R90, R91). -/

namespace Sys2Proof.Machine

/-- The flag's value for an outcome of the comparison (R78). -/
def compareFlagOf (equal : Bool) : CompareFlag := if equal then .isTrue else .isFalse

/-- Whether a conditional jump that wants `want` is taken; an unset flag raises UnsetComparisonFlag (R90, R91,
R97). -/
def jumpTaken (want : Bool) (f : CompareFlag) : Except FaultCause Bool :=
  match f with
  | .unset => .error .unsetComparisonFlag
  | .isTrue => .ok (want == true)
  | .isFalse => .ok (want == false)

end Sys2Proof.Machine
end

