-- ==== Sys2Proof/Machine/Operands.lean ====
section
/-! DEFINITION. The operand forms: a register-index byte and an immediate byte (30_encoding.md R52, R53;
40_fetch_decode_dispatch.md R64). -/

namespace Sys2Proof.Machine

/-- A register-index field: the register it names, or OutOfBoundsAccess(REG, field). The whole byte counts; index
8 is not register 0 (R52, R64). -/
def regField (f : Byte) : Except FaultCause RegId :=
  if h : f.toNat < 8 then .ok ⟨f.toNat, h⟩ else .error (.outOfBounds .reg f.toNat)

/-- LDI's immediate field: the byte as it is, unsigned (R53). -/
def immediate (imm : Byte) : Byte := imm

/-- The register-index fields of an instruction, in the order they are checked (R64). -/
def registerFields : Instr → List Byte
  | .hlt => []
  | .ldi r _ => [r]
  | .prn r => [r]
  | .add a b => [a, b]
  | .mul a b => [a, b]
  | .cmp a b => [a, b]
  | .push r => [r]
  | .pop r => [r]
  | .call r => [r]
  | .ret => []
  | .jmp r => [r]
  | .jeq r => [r]
  | .jne r => [r]

end Sys2Proof.Machine
end

