-- ==== Sys2Proof/Machine/Alu.lean ====
section
/-! DEFINITION. The ALU, and ADD, MUL and CMP over it (42_alu.md). -/

namespace Sys2Proof.Machine

/-- The ALU operation codes (R73): a closed type, so the fault of an unknown code has no case (R74). -/
inductive AluOp where
  | add | mul | cmp
deriving DecidableEq, Repr

/-- What the ALU returns: an 8-bit result (ADD, MUL) or an equality (CMP) (R73). -/
inductive AluResult where
  | byte (v : Byte)
  | equality (equal : Bool)
deriving DecidableEq, Repr

/-- The arithmetic laws (R75): `(s + t) mod 256`, `(s * t) mod 256`, `s == t`. -/
def alu (op : AluOp) (x y : Byte) : AluResult :=
  match op with
  | .add => .byte (BitVec.ofNat 8 (x.toNat + y.toNat))
  | .mul => .byte (BitVec.ofNat 8 (x.toNat * y.toNat))
  | .cmp => .equality (x == y)

/-- Where an ALU result goes: a byte to register `a`, an equality to the comparison flag (R76 to R78). -/
def aluWriteBack (s : State) (a : RegId) (res : AluResult) : State :=
  match res with
  | .byte v => s.writeReg a v
  | .equality e => s.setFlag (compareFlagOf e)

/-- The pseudocode ADD, MUL and CMP share (R76 to R78): both fields are checked, `x[a]` is read before `x[b]`. -/
def aluInstr (op : AluOp) (a b : Byte) (s : State) : Except FaultCause State := do
  let a ← regField a
  let b ← regField b
  let x ← readReg s a
  let y ← readReg s b
  .ok ((aluWriteBack s a (alu op x y)).advance 3)

/-- ADD (R76). -/
def execAdd (a b : Byte) (s : State) : Host.Outcome State Fault Refusal := commit s (aluInstr .add a b s)

/-- MUL (R77). -/
def execMul (a b : Byte) (s : State) : Host.Outcome State Fault Refusal := commit s (aluInstr .mul a b s)

/-- CMP (R78). -/
def execCmp (a b : Byte) (s : State) : Host.Outcome State Fault Refusal := commit s (aluInstr .cmp a b s)

end Sys2Proof.Machine
end

