-- ==== Sys2Proof/Machine/Basic.lean ====
section
/-! DEFINITION. HLT, LDI and PRN (41_basic.md). -/

namespace Sys2Proof.Machine

/-- HLT (R68): `status <- Halted; pc <- pc + 1`. -/
def execHlt (s : State) : Host.Outcome State Fault Refusal :=
  commit s (.ok ((s.setStatus .halted).advance 1))

/-- LDI (R71): `x[r] <- imm; pc <- pc + 3`. -/
def execLdi (r imm : Byte) (s : State) : Host.Outcome State Fault Refusal :=
  commit s do
    let r ← regField r
    .ok ((s.writeReg r (immediate imm)).advance 3)

/-- PRN (R72): `v <- x[r]; emit(v); pc <- pc + 2`. -/
def execPrn (r : Byte) (s : State) : Host.Outcome State Fault Refusal :=
  commit s do
    let r ← regField r
    let v ← readReg s r
    .ok ((s.emit v).advance 2)

end Sys2Proof.Machine
end

