-- ==== Sys2Proof/Machine/Control.lean ====
section
/-! DEFINITION. CALL, RET, JMP, JEQ and JNE (44_control_transfer.md). -/

namespace Sys2Proof.Machine

/-- CALL (R87): SP is decremented, the return address is checked and stored, THEN `x[r]` is read (so CALL R7
jumps to the decremented SP). -/
def execCall (r : Byte) (s : State) : Host.Outcome State Fault Refusal :=
  commit s do
    let r ← regField r
    let s1 ← decrementSp s
    let ra ← returnAddress s1
    let s2 ← storeAtSp s1 ra
    jumpToReg s2 r

/-- RET (R88): the byte at SP becomes the program counter, after SP is incremented. -/
def execRet (s : State) : Host.Outcome State Fault Refusal :=
  commit s do
    let t ← loadAtSp s
    let s1 ← incrementSp s
    .ok (s1.setPc (pcOfByte t))

/-- JMP (R89). -/
def execJmp (r : Byte) (s : State) : Host.Outcome State Fault Refusal :=
  commit s do
    let r ← regField r
    jumpToReg s r

/-- The pseudocode JEQ and JNE share (R90, R91): the field is checked even when the jump is not taken (R64), and
the register is read only when it is. -/
def condJump (want : Bool) (r : Byte) (s : State) : Except FaultCause State := do
  let r ← regField r
  let taken ← jumpTaken want s.eq
  if taken then jumpToReg s r else .ok (s.advance 2)

/-- JEQ (R90). -/
def execJeq (r : Byte) (s : State) : Host.Outcome State Fault Refusal := commit s (condJump true r s)

/-- JNE (R91). -/
def execJne (r : Byte) (s : State) : Host.Outcome State Fault Refusal := commit s (condJump false r s)

end Sys2Proof.Machine
end

