-- ==== Sys2Proof/Machine/Stack.lean ====
section
/-! DEFINITION. PUSH and POP (43_stack.md). The statements run in the order written, each on the state the ones
before it left (40_fetch_decode_dispatch.md R65). -/

namespace Sys2Proof.Machine

/-- PUSH (R82): SP is decremented, THEN `x[r]` is read (so PUSH R7 stores the decremented SP) and stored. -/
def execPush (r : Byte) (s : State) : Host.Outcome State Fault Refusal :=
  commit s do
    let r ← regField r
    let s1 ← decrementSp s
    let v ← readReg s1 r
    let s2 ← storeAtSp s1 v
    .ok (s2.advance 2)

/-- POP (R83): the byte is written to `x[r]`, THEN SP is incremented (so POP R7 leaves the byte plus 1). -/
def execPop (r : Byte) (s : State) : Host.Outcome State Fault Refusal :=
  commit s do
    let r ← regField r
    let v ← loadAtSp s
    let s1 ← incrementSp (s.writeReg r v)
    .ok (s1.advance 2)

end Sys2Proof.Machine
end

