-- ==== Sys2Proof/Machine/Fetch.lean ====
section
/-! DEFINITION. The fetch unit: the opcode byte, its row, and the operand bytes (40_fetch_decode_dispatch.md R60
to R63). -/

namespace Sys2Proof.Machine

/-- Operand byte `n` of the instruction at `pc`: fetched if the opcode's length has it (R63); an operand the
format lacks is not fetched, and `Opcode.assemble` does not look at the 0 standing for it. -/
def fetchOperand (s : State) (o : Opcode) (n : Nat) : Except FaultCause Byte :=
  if n < o.length then memRead s ((s.pc.toNat : Int) + n) else .ok 0

/-- The first half of a step (R60): the opcode fetch (R61), decode (R62), then the operand bytes in increasing
address order (R63). -/
def fetch (s : State) : Except FaultCause Instr := do
  let op ← memRead s s.pc.toNat
  match Opcode.ofByte op with
  | none => .error (.unknownInstruction op)
  | some o =>
    let f1 ← fetchOperand s o 1
    let f2 ← fetchOperand s o 2
    .ok (o.assemble f1 f2)

end Sys2Proof.Machine
end

