-- ==== Sys2Proof/Machine/HostPort.lean ====
section
/-! DEFINITION. What the outside world can do to the block, and what the block reports to it (00_scope.md R16 to
R19; 70_reset_and_hazards.md R108, R112). No step calls these: they are the host's moves. -/

namespace Sys2Proof.Machine

/-- The loader: `IMAGE[0..k-1]` goes to `Memory[0..k-1]`, in increasing address order, while the block is Idle
(R19, R108). Any other host write is no move (R112), and `k <= 256` (R12). -/
def loadImage (image : List Byte) (s : State) : Host.Outcome State Fault Refusal :=
  match s.status with
  | .idle =>
    if image.length ≤ Config.memSize then .next { s with mem := s.mem.deposit 0 image }
    else .refused .imageTooLong
  | .running => .refused .loadOutsideIdle
  | .halted => .refused .loadOutsideIdle
  | .faulted => .refused .loadOutsideIdle

/-- The host's `run` request: Idle becomes Running; in every other state it has no effect (R16, R30). -/
def requestRun (s : State) : State :=
  match s.status with
  | .idle => s.setStatus .running
  | .running => s
  | .halted => s
  | .faulted => s

/-- The boot order (R108): reset, the loader, `run`. The steps that follow start at `pc = 0`. -/
def boot (image : List Byte) : Host.Outcome State Fault Refusal :=
  match loadImage image State.reset with
  | .next s => .next (requestRun s)
  | .fault r => .fault r
  | .refused r => .refused r

/-- The status output: 0 after HLT, `FAULT_EXIT_STATUS` after a fault, nothing before the block stops (R18, R69,
R98). -/
def exitStatus (s : State) : Option Int :=
  match s.status with
  | .idle => none
  | .running => none
  | .halted => some 0
  | .faulted => some Config.faultExitStatus.toInt

/-- Whether the host may read the state: only when the block has stopped (R112, R70). -/
def hostMayRead (st : RunStatus) : Bool :=
  match st with
  | .idle => false
  | .running => false
  | .halted => true
  | .faulted => true

/-- One read of the host: the value in Halted or Faulted, refused in Idle and Running, where R112 gives the host
no access. A read changes nothing. -/
def hostRead {α : Type} (s : State) (value : α) : Except Refusal α :=
  if hostMayRead s.status then .ok value else .error .readBeforeStop

/-- The host reads a register: its value, or that it holds none (R25, R112). -/
def hostRegister (s : State) (i : RegId) : Except Refusal (Option Byte) := hostRead s (registerValue s i)

/-- The host reads a memory byte (R112). -/
def hostByte (s : State) (a : Fin 256) : Except Refusal Byte := hostRead s (s.byteAt a.val)

/-- The host reads `pc` (R112). -/
def hostPc (s : State) : Except Refusal PcWord := hostRead s s.pc

/-- The host reads `eq` (R112). -/
def hostFlag (s : State) : Except Refusal CompareFlag := hostRead s s.eq

/-- The host reads the output trace (R31, R112). -/
def hostOut (s : State) : Except Refusal (List Byte) := hostRead s s.out

/-- The host reads the fault record, which is also the identifying message (R98): in Faulted alone (R112). -/
def hostFault (s : State) : Except Refusal (Option FaultRecord) :=
  match s.status with
  | .idle => .error .noFaultToRead
  | .running => .error .noFaultToRead
  | .halted => .error .noFaultToRead
  | .faulted => .ok s.fault

/-- What a Running block gives back as it goes from `s` to `t`: the `Print(v)` events, the values the output trace
has gained (R17, R112). -/
def printEvents (s t : State) : List Byte := t.out.drop s.out.length

end Sys2Proof.Machine
end

