-- ==== Sys2Proof/Machine/Step.lean ====
section
/-! DEFINITION. One step of the machine (40_fetch_decode_dispatch.md R60, R66). -/

namespace Sys2Proof.Machine

/-- One whole instruction (R60): fetch and decode, then execute. Steps happen only while Running (R66). -/
def step (s : State) : Host.Outcome State Fault Refusal :=
  match s.status with
  | .running =>
    match fetch s with
    | .ok i => exec i s
    | .error c => .next (takeFault c s)
  | .idle => takeNoStep s
  | .halted => takeNoStep s
  | .faulted => takeNoStep s

/-- `s` with an instruction of the opcode table placed at the program counter and the machine Running, so that
the next step fetches and runs it. It stands for the loader's write and the `run` request of R108; log entry 6. -/
def State.withFetchWord (s : State) (nbits w : Nat) : State :=
  { s with mem := s.mem.deposit s.pc.toNat (tableWordBytes nbits w), status := .running }

end Sys2Proof.Machine
end

