-- ==== Sys2Proof/Safety.lean ====
section
/-! DEFINITION. The terms claims are stated in: completing, the machine's invariant, what an instruction may
change, and the ghost stack of 43_stack.md R81. -/

namespace Sys2Proof.Machine

/-- The instruction runs to its end: there is a next state and no fault was taken in it. -/
def Completes (i : Instr) (s t : State) : Prop := exec i s = .next t ∧ t.status ≠ .faulted

/-- The instruction raises `c`: the next state is `s` with the fault taken. -/
def Raises (i : Instr) (s : State) (c : FaultCause) : Prop := exec i s = .next (takeFault c s)

/-- What holds of every state a run can be in. -/
structure State.Inv (s : State) : Prop where
  /-- Memory keeps its canonical form. -/
  memCanonical : s.mem.wf = true
  /-- The program counter is 0 to 256 (R8, R27). -/
  pcInRange : s.pc.toNat ≤ 256
  /-- The stack pointer always holds a value (R25). -/
  spWritten : s.written[Config.spIndex] = true
  /-- There is a fault record exactly in Faulted (R32, R98). -/
  recordIffFaulted : s.fault.isSome = true ↔ s.status = .faulted
  /-- A fault record names the program counter the machine still has and is the record of one of the causes of
  R92, never of the unreachable UnsupportedALUOperation (R74, R95, R98). -/
  recordPrecise : ∀ r, s.fault = some r →
    ∃ c : FaultCause, c ≠ .unsupportedALUOperation ∧ r = c.recordAt s.pc

/-- Two states that differ at most in what stands in registers that hold no value. -/
structure AgreeOnWritten (s t : State) : Prop where
  written : t.written = s.written
  regs : ∀ i : RegId, s.written[i] = true → t.regs[i] = s.regs[i]
  pc : t.pc = s.pc
  eq : t.eq = s.eq
  status : t.status = s.status
  out : t.out = s.out
  fault : t.fault = s.fault
  mem : t.mem = s.mem

/-- The registers an instruction may write: its destination, and SP for the stack instructions. -/
def mayWrite (i : Instr) (k : RegId) : Prop :=
  match i with
  | .hlt => False
  | .ldi r _ => k.val = r.toNat
  | .prn _ => False
  | .add a _ => k.val = a.toNat
  | .mul a _ => k.val = a.toNat
  | .cmp _ _ => False
  | .push _ => k = Config.spIndex
  | .pop r => k.val = r.toNat ∨ k = Config.spIndex
  | .call _ => k = Config.spIndex
  | .ret => k = Config.spIndex
  | .jmp _ => False
  | .jeq _ => False
  | .jne _ => False

/-- PUSH and CALL, the instructions that store a byte (R38). -/
def storesByte : Instr → Bool
  | .push _ => true
  | .call _ => true
  | .hlt => false
  | .ldi _ _ => false
  | .prn _ => false
  | .add _ _ => false
  | .mul _ _ => false
  | .cmp _ _ => false
  | .pop _ => false
  | .ret => false
  | .jmp _ => false
  | .jeq _ => false
  | .jne _ => false

/-- The instructions that set the program counter directly (R26, R27). -/
def controlTransfer : Instr → Bool
  | .call _ => true
  | .ret => true
  | .jmp _ => true
  | .jeq _ => true
  | .jne _ => true
  | .hlt => false
  | .ldi _ _ => false
  | .prn _ => false
  | .add _ _ => false
  | .mul _ _ => false
  | .cmp _ _ => false
  | .push _ => false
  | .pop _ => false

/-- The byte `v`, stored at address `a`, is what the next step of `t` fetches there, as its opcode or as an operand
(R48): it is the byte of memory the fetch unit meets at `a`, the step runs whatever the bytes at the program counter
decode to, and a stored byte that is no opcode, met as one, is the unknown instruction. -/
structure SeenByNextStep (t : State) (a : Nat) (v : Byte) : Prop where
  held : t.byteAt a = v
  met : t.pc.toNat ≤ a → (t.mem.bytesFrom t.pc.toNat)[a - t.pc.toNat]? = some v
  runs : t.pc.toNat < 256 → ∀ (i : Instr) (rest : List Byte),
    decode (t.mem.bytesFrom t.pc.toNat) = .ok (i, rest) → step t = exec i t
  unknown : t.pc.toNat = a → (∀ o : Opcode, o.toByte ≠ v) → step t = .next (takeFault (.unknownInstruction v) t)

/-- One stack instruction of a sequence of R81. -/
inductive StackOp where
  | push (r : RegId)
  | pop (r : RegId)
deriving DecidableEq, Repr

/-- The instruction a stack operation is. -/
def StackOp.instr : StackOp → Instr
  | .push r => .push (BitVec.ofNat 8 r.val)
  | .pop r => .pop (BitVec.ofNat 8 r.val)

/-- The register a stack operation names. -/
def StackOp.reg : StackOp → RegId
  | .push r => r
  | .pop r => r

/-- The ghost run of R81: an ideal last-in-first-out stack of bytes (top first) beside the registers; none if a pop
has no matching push. -/
def ghostRun : List StackOp → Vector Byte 8 → List Byte → Option (Vector Byte 8 × List Byte)
  | [], g, st => some (g, st)
  | .push r :: ops, g, st => ghostRun ops g (g[r] :: st)
  | .pop _ :: _, _, [] => none
  | .pop r :: ops, g, v :: st => ghostRun ops (g.set r v) st

/-- The instructions run one after another, each to its end. -/
def RunsTo : List Instr → State → State → Prop
  | [], s, t => s = t
  | i :: is, s, t => ∃ u, Completes i s u ∧ RunsTo is u t

end Sys2Proof.Machine
end

