-- ==== Sys2Proof/Certificates/Slice0/Obligations.lean ====
section
/-! DEFINITION. The statements for the provers. A statement whose clause rests on a choice the spec marks as its own
(92_eei_decisions.md D1 to D23), or on a log entry, says so in its docstring. -/

open Sys2Proof Sys2Proof.Machine

/-! ### Reset, boot and the host -/

/-- R106: what reset leaves. R0 to R6 hold no value (D4): nothing is said of what stands in their slots. -/
def Obligations.ResetValues : Prop :=
  State.reset.regs[7] = 255 ∧ State.reset.pc = 0 ∧ State.reset.eq = .unset ∧ State.reset.status = .idle ∧
  State.reset.out = [] ∧ State.reset.fault = none ∧
  (∀ i : RegId, State.reset.written[i] = decide (i = 7)) ∧
  (∀ i : RegId, registerValue State.reset i = if i = 7 then some 255 else none) ∧
  (∀ a : Nat, State.reset.byteAt a = Config.initMem a)

/-- The invariant holds right after reset. -/
def Obligations.ResetMeetsInvariant : Prop := State.reset.Inv

/-- The boot order of R108 and the start of a run of R45: the image at `0..k-1`, `INIT_MEM` above it (a free value,
D5), the machine Running with every other piece of state as reset left it. -/
def Obligations.BootLoadsImageAndRuns : Prop :=
  ∀ image : List Byte, image.length ≤ 256 →
    ∃ s, boot image = .next s ∧ s = { State.reset with status := .running, mem := s.mem } ∧ s.Inv ∧
      (∀ (a : Nat) (h : a < image.length), s.byteAt a = image[a]) ∧
      (∀ a : Nat, image.length ≤ a → s.byteAt a = Config.initMem a)

/-- The host's moves (R16, R30, R112, D13): the loader writes only while Idle, `run` is accepted only from Idle. That a
load outside Idle, or of more than 256 bytes, is REFUSED by name is the model's choice (log entry 7). -/
def Obligations.HostMovesOnlyFromIdle : Prop :=
  (∀ (s : State) (image : List Byte), s.status ≠ .idle → loadImage image s = .refused .loadOutsideIdle) ∧
  (∀ (s : State) (image : List Byte), s.status = .idle → 256 < image.length →
    loadImage image s = .refused .imageTooLong) ∧
  (∀ s : State, s.status = .idle → requestRun s = { s with status := .running }) ∧
  (∀ s : State, s.status ≠ .idle → requestRun s = s)

/-- The status output of R18: 0 on a clean halt, a number other than 0 after a fault (D17: nothing else is known of
it), nothing while the block is Idle or Running. -/
def Obligations.ExitStatusZeroOnlyAfterHalt : Prop :=
  ∀ s : State,
    (exitStatus s = some 0 ↔ s.status = .halted) ∧
    ((∃ n : Int, n ≠ 0 ∧ exitStatus s = some n) ↔ s.status = .faulted) ∧
    (exitStatus s = none ↔ (s.status = .idle ∨ s.status = .running))

/-- The host's reads of R112 (D14): none in Idle or Running; in Halted and Faulted every register (with whether it holds a
value), memory byte, `pc`, `eq` and `out`; the fault record in Faulted alone. That a read out of its phase is REFUSED by name
is the model's choice (log entry 18). -/
def Obligations.HostReadsOnlyWhenStopped : Prop :=
  ∀ s : State,
    ((s.status = .idle ∨ s.status = .running) →
      (∀ i, hostRegister s i = .error .readBeforeStop) ∧ (∀ a, hostByte s a = .error .readBeforeStop) ∧
      hostPc s = .error .readBeforeStop ∧ hostFlag s = .error .readBeforeStop ∧
      hostOut s = .error .readBeforeStop) ∧
    ((s.status = .halted ∨ s.status = .faulted) →
      (∀ i : RegId, hostRegister s i = .ok (if s.written[i] then some s.regs[i] else none)) ∧
      (∀ a : Fin 256, hostByte s a = .ok (s.byteAt a.val)) ∧
      hostPc s = .ok s.pc ∧ hostFlag s = .ok s.eq ∧ hostOut s = .ok s.out) ∧
    (s.status = .faulted → hostFault s = .ok s.fault) ∧
    (s.status ≠ .faulted → hostFault s = .error .noFaultToRead)

/-- What a Running block gives back (R17, R112): a step appends its `Print(v)` events to the trace, there is at most one, and
if there is one the block was Running at PRN's opcode byte, which is 0x47 by R54's map (D1, log entry 1, PRESUMED). -/
def Obligations.PrintEventsComeFromRunningPrn : Prop :=
  ∀ s t : State, step s = .next t →
    t.out = s.out ++ printEvents s t ∧ (printEvents s t).length ≤ 1 ∧
    (printEvents s t ≠ [] → s.status = .running ∧ s.pc.toNat < 256 ∧ s.byteAt s.pc.toNat = 0x47)

/-! ### Encoding -/

/-- R54, R51 and R50: the opcode map row by row, each with its format and its length. The byte values are the spec's decision
D1 (log entry 1). -/
def Obligations.OpcodeMapRows : Prop :=
  (∀ (b : Byte) (o : Opcode), Opcode.ofByte b = some o ↔
    (b, o) ∈ ([(0x01, .hlt), (0x82, .ldi), (0x47, .prn), (0xA0, .add), (0xA2, .mul), (0xA7, .cmp), (0x45, .push),
      (0x46, .pop), (0x50, .call), (0x11, .ret), (0x54, .jmp), (0x55, .jeq), (0x56, .jne)] : List (Byte × Opcode))) ∧
  (∀ o : Opcode, o.format = .n ↔ (o = .hlt ∨ o = .ret)) ∧
  (∀ o : Opcode, o.format = .r ↔
    (o = .prn ∨ o = .push ∨ o = .pop ∨ o = .call ∨ o = .jmp ∨ o = .jeq ∨ o = .jne)) ∧
  (∀ o : Opcode, o.format = .rr ↔ (o = .add ∨ o = .mul ∨ o = .cmp)) ∧
  (∀ o : Opcode, o.format = .ri ↔ o = .ldi) ∧
  (∀ o : Opcode, o.length = 1 ↔ (o = .hlt ∨ o = .ret)) ∧
  (∀ o : Opcode, o.length = 3 ↔ (o = .ldi ∨ o = .add ∨ o = .mul ∨ o = .cmp)) ∧
  (∀ o : Opcode, o.length = 1 ∨ o.length = 2 ∨ o.length = 3)

/-- R51 with the opcode bytes of R54 (D1, log entry 1): the bytes of every instruction, opcode first, operands in the table's order. -/
def Obligations.EncodingLayout : Prop :=
  ∀ a b : Byte,
    encode .hlt = [0x01] ∧ encode (.ldi a b) = [0x82, a, b] ∧ encode (.prn a) = [0x47, a] ∧
    encode (.add a b) = [0xA0, a, b] ∧ encode (.mul a b) = [0xA2, a, b] ∧ encode (.cmp a b) = [0xA7, a, b] ∧
    encode (.push a) = [0x45, a] ∧ encode (.pop a) = [0x46, a] ∧ encode (.call a) = [0x50, a] ∧ encode .ret = [0x11] ∧
    encode (.jmp a) = [0x54, a] ∧ encode (.jeq a) = [0x55, a] ∧ encode (.jne a) = [0x56, a]

/-- Words written out from R51 and R54 (D1, log entry 1), one of each format and family. -/
def Obligations.SampleWordsDecode : Prop :=
  decode [0b00000001] = .ok (.hlt, []) ∧
  decode [0b10000010, 0, 8] = .ok (.ldi 0 8, []) ∧
  decode [0b01000111, 3] = .ok (.prn 3, []) ∧
  decode [0b10100000, 1, 2] = .ok (.add 1 2, []) ∧
  decode [0b01000110, 7, 0x11] = .ok (.pop 7, [0x11]) ∧
  decode [0b01010110, 9] = .ok (.jne 9, []) ∧
  decode [0b00000000, 1] = .error (.unknownOpcode 0) ∧
  decode [0b10100111, 1] = .error (.missingOperand .cmp)

/-- R51: decoding the bytes of any instruction, with any operand bytes and whatever follows, gives it back and leaves
what follows. -/
def Obligations.DecodeEncodeRoundTrip : Prop :=
  ∀ (i : Instr) (rest : List Byte), decode (encode i ++ rest) = .ok (i, rest)

/-- R55: the decoder accepts nothing but encodings; each word has one meaning. -/
def Obligations.DecodeAcceptsOnlyEncodings : Prop :=
  ∀ (bs rest : List Byte) (i : Instr), decode bs = .ok (i, rest) → bs = encode i ++ rest

/-! ### The instruction cycle -/

/-- R60: a Running machine whose bytes at the program counter decode to `i` runs exactly `i`. -/
def Obligations.StepRunsDecodedInstruction : Prop :=
  ∀ (s : State) (i : Instr) (rest : List Byte), s.status = .running → s.pc.toNat < 256 →
    decode (s.mem.bytesFrom s.pc.toNat) = .ok (i, rest) → step s = exec i s

/-- R61: the fetch at 256 raises OutOfBoundsAccess(MEM, 256) with no other effect. The record's code is the spec's
decision D16. -/
def Obligations.FetchAt256Faults : Prop :=
  ∀ s : State, s.status = .running → s.pc.toNat = 256 →
    step s = .next { s with
      status := .faulted
      fault := some { kind := .outOfBoundsAccess, code := 2, pc := s.pc, info := .access .mem 256 } }

/-- R62 and R93: a byte the map has decodes to its row, and one that no row has raises UnknownInstruction: no register is
read, nothing else is written. The record's code is the spec's decision D16. -/
def Obligations.UnknownOpcodeFaults : Prop :=
  (∀ o : Opcode, Opcode.ofByte o.toByte = some o) ∧
  ∀ s : State, s.status = .running → s.pc.toNat < 256 →
    (∀ o : Opcode, o.toByte ≠ s.byteAt s.pc.toNat) →
    step s = .next { s with
      status := .faulted
      fault := some
        { kind := .unknownInstruction, code := 1, pc := s.pc, info := .opcode (s.byteAt s.pc.toNat) } }

/-- R63: an instruction whose last byte would lie past address 255 raises OutOfBoundsAccess(MEM) for the first missing
address, which is 256, whatever the instruction would do with the operand (D11). -/
def Obligations.OperandFetchPastEndFaults : Prop :=
  ∀ (s : State) (o : Opcode), s.status = .running → s.pc.toNat < 256 → s.byteAt s.pc.toNat = o.toByte →
    256 < s.pc.toNat + o.length → step s = .next (takeFault (.outOfBounds .mem 256) s)

/-- R52: a register-index field is the whole byte: it names `x[field]` when it is at most 7, and any other value is
OutOfBoundsAccess(REG, field); no bit of it is masked. -/
def Obligations.RegisterFieldIsWholeByte : Prop :=
  ∀ f : Byte,
    (∀ i : RegId, regField f = .ok i ↔ f.toNat = i.val) ∧
    (8 ≤ f.toNat → regField f = .error (.outOfBounds .reg f.toNat))

/-- R64: the register fields are checked in order before the instruction does anything, even when it would not read the
register (D11). -/
def Obligations.RegisterFieldsCheckedFirst : Prop :=
  ∀ (i : Instr) (s : State),
    (∀ f, (registerFields i).find? (fun f => decide (8 ≤ f.toNat)) = some f →
      Raises i s (.outOfBounds .reg f.toNat)) ∧
    (i.wellFormed = true ↔ (registerFields i).find? (fun f => decide (8 ≤ f.toNat)) = none)

/-- R98 and the code column of R92: what taking a fault writes, and that it changes nothing else. The codes and the
record are the spec's decision D16. -/
def Obligations.FaultEntryRecordsAndKeepsRest : Prop :=
  ∀ (s : State) (op : Byte) (place : AccessKind) (v : Int) (i : RegId),
    takeFault (.unknownInstruction op) s = { s with
      status := .faulted
      fault := some { kind := .unknownInstruction, code := 1, pc := s.pc, info := .opcode op } } ∧
    takeFault (.outOfBounds place v) s = { s with
      status := .faulted
      fault := some { kind := .outOfBoundsAccess, code := 2, pc := s.pc, info := .access place v } } ∧
    takeFault .unsupportedALUOperation s = { s with
      status := .faulted
      fault := some { kind := .unsupportedALUOperation, code := 3, pc := s.pc, info := .nothing } } ∧
    takeFault (.uninitializedRegister i) s = { s with
      status := .faulted
      fault := some { kind := .uninitializedRegister, code := 4, pc := s.pc, info := .register i } } ∧
    takeFault .unsetComparisonFlag s = { s with
      status := .faulted
      fault := some { kind := .unsetComparisonFlag, code := 5, pc := s.pc, info := .nothing } }

/-- R30 and R66: every transition of the run state that a step makes. A Running step always answers a next state, which is
Running, Halted (exactly when the opcode byte is HLT's) or Faulted with a record; in any other state nothing changes.
That HLT's opcode byte is 0x01 is R54's map, the spec's decision D1 (log entry 1, PRESUMED). That "takes no step" is the next
state `s` itself is the model's choice for Idle (log entry 5); the states and their names are the spec's decision D13. -/
def Obligations.RunStateTransitions : Prop :=
  ∀ s : State,
    (s.status ≠ .running → step s = .next s) ∧
    (s.status = .running → ∃ t, step s = .next t ∧
      (t.status = .running ∨ t.status = .halted ∨ (t.status = .faulted ∧ t.fault.isSome = true)) ∧
      (t.status = .halted ↔ (s.pc.toNat < 256 ∧ s.byteAt s.pc.toNat = 0x01)))

/-! ### HLT, LDI, PRN -/

/-- R68: HLT halts, the program counter moves on by 1, all other state is unchanged, and the exit status is 0. -/
def Obligations.HltHaltsAndAdvances : Prop :=
  ∀ s : State, exec .hlt s = .next { s with status := .halted, pc := s.pc + 1 } ∧
    exitStatus { s with status := .halted, pc := s.pc + 1 } = some 0

/-- R71: LDI writes the immediate byte to any register of the eight, R7 included (D22), written before or not. -/
def Obligations.LdiWritesImmediate : Prop :=
  ∀ (s : State) (r imm : Byte) (_ : r.toNat < 8),
    exec (.ldi r imm) s = .next { s with
      regs := s.regs.set r.toNat imm
      written := s.written.set r.toNat true
      pc := s.pc + 3 }

/-- R72: PRN appends the register's value to the output trace; a register that holds no value faults (D4). -/
def Obligations.PrnEmitsRegister : Prop :=
  ∀ (s : State) (r : Byte) (hr : r.toNat < 8),
    (s.written[r.toNat] = true →
      exec (.prn r) s = .next { s with out := s.out ++ [s.regs[r.toNat]], pc := s.pc + 2 }) ∧
    (s.written[r.toNat] = false →
      exec (.prn r) s = .next (takeFault (.uninitializedRegister ⟨r.toNat, hr⟩) s))

/-! ### ADD, MUL, CMP -/

/-- R75: the arithmetic laws of the ALU, and that no flag records an overflow: ADD and MUL leave every piece of state but the
registers and the program counter as it was. -/
def Obligations.AluArithmeticLaws : Prop :=
  (∀ x y : Byte, alu .add x y = .byte (BitVec.ofNat 8 ((x.toNat + y.toNat) % 256))) ∧
  (∀ x y : Byte, alu .mul x y = .byte (BitVec.ofNat 8 ((x.toNat * y.toNat) % 256))) ∧
  (∀ x y : Byte, alu .cmp x y = .equality (decide (x.toNat = y.toNat))) ∧
  (∀ (a b : Byte) (s t : State), (Completes (.add a b) s t ∨ Completes (.mul a b) s t) →
    t = { s with regs := t.regs, written := t.written, pc := t.pc })

/-- R76: ADD. The faults on a register that holds no value, `a` before `b`, are the spec's decisions D4 and D10. -/
def Obligations.AddSumsModulo256 : Prop :=
  ∀ (s : State) (a b : Byte) (ha : a.toNat < 8) (hb : b.toNat < 8),
    (s.written[a.toNat] = true → s.written[b.toNat] = true →
      exec (.add a b) s = .next { s with
        regs := s.regs.set a.toNat (BitVec.ofNat 8 ((s.regs[a.toNat].toNat + s.regs[b.toNat].toNat) % 256))
        pc := s.pc + 3 }) ∧
    (s.written[a.toNat] = false →
      exec (.add a b) s = .next (takeFault (.uninitializedRegister ⟨a.toNat, ha⟩) s)) ∧
    (s.written[a.toNat] = true → s.written[b.toNat] = false →
      exec (.add a b) s = .next (takeFault (.uninitializedRegister ⟨b.toNat, hb⟩) s))

/-- R77: MUL, the low 8 bits of the product. The faults as for ADD (D4, D10). -/
def Obligations.MulMultipliesModulo256 : Prop :=
  ∀ (s : State) (a b : Byte) (ha : a.toNat < 8) (hb : b.toNat < 8),
    (s.written[a.toNat] = true → s.written[b.toNat] = true →
      exec (.mul a b) s = .next { s with
        regs := s.regs.set a.toNat (BitVec.ofNat 8 ((s.regs[a.toNat].toNat * s.regs[b.toNat].toNat) % 256))
        pc := s.pc + 3 }) ∧
    (s.written[a.toNat] = false →
      exec (.mul a b) s = .next (takeFault (.uninitializedRegister ⟨a.toNat, ha⟩) s)) ∧
    (s.written[a.toNat] = true → s.written[b.toNat] = false →
      exec (.mul a b) s = .next (takeFault (.uninitializedRegister ⟨b.toNat, hb⟩) s))

/-- R78: CMP sets the flag to the equality of the two registers, whatever it was, and writes nothing else. The faults as
for ADD (D4, D10). -/
def Obligations.CmpSetsFlagToEquality : Prop :=
  ∀ (s : State) (a b : Byte) (ha : a.toNat < 8) (hb : b.toNat < 8),
    (s.written[a.toNat] = true → s.written[b.toNat] = true →
      exec (.cmp a b) s = .next { s with
        eq := if s.regs[a.toNat] = s.regs[b.toNat] then .isTrue else .isFalse
        pc := s.pc + 3 }) ∧
    (s.written[a.toNat] = false →
      exec (.cmp a b) s = .next (takeFault (.uninitializedRegister ⟨a.toNat, ha⟩) s)) ∧
    (s.written[a.toNat] = true → s.written[b.toNat] = false →
      exec (.cmp a b) s = .next (takeFault (.uninitializedRegister ⟨b.toNat, hb⟩) s))

/-! ### PUSH, POP -/

/-- R82: PUSH decrements SP and stores the register's value there; PUSH R7 stores the decremented SP (D12). With SP = 0 it
faults and SP stays (R79), before the register is looked at (D10); a register that holds no value faults (D4). -/
def Obligations.PushDecrementsThenStores : Prop :=
  ∀ (s : State) (r : Byte) (hr : r.toNat < 8), s.written[7] = true →
    (s.regs[7].toNat ≠ 0 → s.written[r.toNat] = true →
      exec (.push r) s = .next { s with
        regs := s.regs.set 7 (BitVec.ofNat 8 (s.regs[7].toNat - 1))
        mem := s.mem.write (s.regs[7].toNat - 1)
          (if r.toNat = 7 then BitVec.ofNat 8 (s.regs[7].toNat - 1) else s.regs[r.toNat])
        pc := s.pc + 2 }) ∧
    (s.regs[7].toNat = 0 → exec (.push r) s = .next (takeFault (.outOfBounds .mem (-1)) s)) ∧
    (s.regs[7].toNat ≠ 0 → s.written[r.toNat] = false →
      exec (.push r) s = .next (takeFault (.uninitializedRegister ⟨r.toNat, hr⟩) s))

/-- R83: POP reads the byte at SP into the register, then increments SP; POP R7 leaves the byte plus 1 (D12). A pop that
would leave SP = 256 faults (D7). The destination need hold no value before. -/
def Obligations.PopReadsThenIncrements : Prop :=
  ∀ (s : State) (r : Byte) (_ : r.toNat < 8), s.written[7] = true →
    (r.toNat ≠ 7 → s.regs[7].toNat ≠ 255 →
      exec (.pop r) s = .next { s with
        regs := (s.regs.set r.toNat (s.byteAt s.regs[7].toNat)).set 7 (BitVec.ofNat 8 (s.regs[7].toNat + 1))
        written := s.written.set r.toNat true
        pc := s.pc + 2 }) ∧
    (r.toNat = 7 → (s.byteAt s.regs[7].toNat).toNat ≠ 255 →
      exec (.pop r) s = .next { s with
        regs := s.regs.set 7 (BitVec.ofNat 8 ((s.byteAt s.regs[7].toNat).toNat + 1))
        pc := s.pc + 2 }) ∧
    (r.toNat ≠ 7 → s.regs[7].toNat = 255 →
      exec (.pop r) s = .next (takeFault (.outOfBounds .spovf 256) s)) ∧
    (r.toNat = 7 → (s.byteAt s.regs[7].toNat).toNat = 255 →
      exec (.pop r) s = .next (takeFault (.outOfBounds .spovf 256) s))

/-! ### CALL, RET, JMP, JEQ, JNE -/

/-- R87: CALL stores `pc + 2` below SP and jumps to the register's value; CALL R7 jumps to the decremented SP (D12). Its
faults in their order (D10): SP = 0; a return address that fits no byte (D8); a register that holds no value (D4). -/
def Obligations.CallStoresReturnAddressAndJumps : Prop :=
  ∀ (s : State) (r : Byte) (hr : r.toNat < 8), s.written[7] = true →
    (s.regs[7].toNat ≠ 0 → s.pc.toNat + 2 ≤ 255 → s.written[r.toNat] = true →
      exec (.call r) s = .next { s with
        regs := s.regs.set 7 (BitVec.ofNat 8 (s.regs[7].toNat - 1))
        mem := s.mem.write (s.regs[7].toNat - 1) (BitVec.ofNat 8 (s.pc.toNat + 2))
        pc := BitVec.ofNat 9 (if r.toNat = 7 then s.regs[7].toNat - 1 else s.regs[r.toNat].toNat) }) ∧
    (s.regs[7].toNat = 0 → exec (.call r) s = .next (takeFault (.outOfBounds .mem (-1)) s)) ∧
    (s.regs[7].toNat ≠ 0 → 255 < s.pc.toNat + 2 →
      exec (.call r) s = .next (takeFault (.outOfBounds .retaddr (s.pc.toNat + 2)) s)) ∧
    (s.regs[7].toNat ≠ 0 → s.pc.toNat + 2 ≤ 255 → s.written[r.toNat] = false →
      exec (.call r) s = .next (takeFault (.uninitializedRegister ⟨r.toNat, hr⟩) s))

/-- R88: RET takes the byte at SP as the program counter and increments SP; with SP = 255 it faults (D7). -/
def Obligations.RetPopsProgramCounter : Prop :=
  ∀ s : State, s.written[7] = true →
    (s.regs[7].toNat ≠ 255 →
      exec .ret s = .next { s with
        regs := s.regs.set 7 (BitVec.ofNat 8 (s.regs[7].toNat + 1))
        pc := BitVec.ofNat 9 (s.byteAt s.regs[7].toNat).toNat }) ∧
    (s.regs[7].toNat = 255 → exec .ret s = .next (takeFault (.outOfBounds .spovf 256) s))

/-- R89: JMP sets the program counter to the register's value; a register that holds no value faults (D4). -/
def Obligations.JmpSetsProgramCounter : Prop :=
  ∀ (s : State) (r : Byte) (hr : r.toNat < 8),
    (s.written[r.toNat] = true →
      exec (.jmp r) s = .next { s with pc := BitVec.ofNat 9 s.regs[r.toNat].toNat }) ∧
    (s.written[r.toNat] = false →
      exec (.jmp r) s = .next (takeFault (.uninitializedRegister ⟨r.toNat, hr⟩) s))

/-- R90: JEQ jumps when the flag is TRUE and moves on by 2 when it is FALSE, then without reading the register (D11). An
unset flag faults (D6). -/
def Obligations.JeqJumpsWhenTrue : Prop :=
  ∀ (s : State) (r : Byte) (hr : r.toNat < 8),
    (s.eq = .isTrue → s.written[r.toNat] = true →
      exec (.jeq r) s = .next { s with pc := BitVec.ofNat 9 s.regs[r.toNat].toNat }) ∧
    (s.eq = .isFalse → exec (.jeq r) s = .next { s with pc := s.pc + 2 }) ∧
    (s.eq = .unset → exec (.jeq r) s = .next (takeFault .unsetComparisonFlag s)) ∧
    (s.eq = .isTrue → s.written[r.toNat] = false →
      exec (.jeq r) s = .next (takeFault (.uninitializedRegister ⟨r.toNat, hr⟩) s))

/-- R91: JNE jumps when the flag is FALSE and moves on by 2 when it is TRUE, then without reading the register (D11). An
unset flag faults (D6). -/
def Obligations.JneJumpsWhenFalse : Prop :=
  ∀ (s : State) (r : Byte) (hr : r.toNat < 8),
    (s.eq = .isFalse → s.written[r.toNat] = true →
      exec (.jne r) s = .next { s with pc := BitVec.ofNat 9 s.regs[r.toNat].toNat }) ∧
    (s.eq = .isTrue → exec (.jne r) s = .next { s with pc := s.pc + 2 }) ∧
    (s.eq = .unset → exec (.jne r) s = .next (takeFault .unsetComparisonFlag s)) ∧
    (s.eq = .isFalse → s.written[r.toNat] = false →
      exec (.jne r) s = .next (takeFault (.uninitializedRegister ⟨r.toNat, hr⟩) s))

/-! ### Rules about the whole machine -/

/-- R28: three values, UNSET at reset; only CMP writes the flag, TRUE or FALSE by the equality; nothing returns it to
UNSET; only JEQ and JNE read it (any other instruction does the same to the rest of the state whatever the flag is). -/
def Obligations.ComparisonFlagRule : Prop :=
  State.reset.eq = .unset ∧
  (∀ f : CompareFlag, f = .unset ∨ f = .isTrue ∨ f = .isFalse) ∧
  (∀ (i : Instr) (s t : State), exec i s = .next t → t.eq ≠ s.eq → ∃ a b, i = .cmp a b) ∧
  (∀ (a b : Byte) (s t : State) (_ : a.toNat < 8) (_ : b.toNat < 8), Completes (.cmp a b) s t →
    t.eq = if s.regs[a.toNat] = s.regs[b.toNat] then .isTrue else .isFalse) ∧
  (∀ (i : Instr) (s t : State), exec i s = .next t → t.eq = .unset → s.eq = .unset) ∧
  (∀ (i : Instr) (s t : State) (f : CompareFlag), (∀ r, i ≠ .jeq r ∧ i ≠ .jne r) → exec i s = .next t →
    ∃ t', exec i { s with eq := f } = .next t' ∧ { t' with eq := t.eq } = t)

/-- R31: the trace is empty at reset, PRN is its only writer, and a PRN that completes appends one value. -/
def Obligations.OutputTraceRule : Prop :=
  State.reset.out = [] ∧
  (∀ (i : Instr) (s t : State), exec i s = .next t → t.out ≠ s.out →
    ∃ (r : Byte) (_ : r.toNat < 8), i = .prn r ∧ t.out = s.out ++ [s.regs[r.toNat]]) ∧
  (∀ (r : Byte) (s t : State) (_ : r.toNat < 8), Completes (.prn r) s t → t.out = s.out ++ [s.regs[r.toNat]])

/-- R69: when HLT completes the exit status is 0, and HLT is the only instruction that ends a run without a fault. -/
def Obligations.HltIsTheOnlyCleanEnd : Prop :=
  (∀ s : State, ∃ t, exec .hlt s = .next t ∧ exitStatus t = some 0) ∧
  (∀ (i : Instr) (s t : State), s.status = .running → exec i s = .next t →
    t.status = .running ∨ t.status = .faulted ∨ (i = .hlt ∧ t.status = .halted))

/-- R39: an access inside `[0, 256)` is made at that very address, one outside it is OutOfBoundsAccess with the address
neither reduced nor clamped; and the addresses a step can fault on are 256, 257 and -1. -/
def Obligations.MemoryAccessNeverWraps : Prop :=
  (∀ (s : State) (a : Int), 0 ≤ a → a < 256 → memRead s a = .ok (s.byteAt a.toNat)) ∧
  (∀ (s : State) (a : Int), (a < 0 ∨ 256 ≤ a) → memRead s a = .error (.outOfBounds .mem a)) ∧
  (∀ (s : State) (a : Int) (v : Byte), 0 ≤ a → a < 256 →
    ∃ t, memWrite s a v = .ok t ∧ t = { s with mem := t.mem } ∧
      ∀ b : Nat, t.byteAt b = if b = a.toNat then v else s.byteAt b) ∧
  (∀ (s : State) (a : Int) (v : Byte), (a < 0 ∨ 256 ≤ a) → memWrite s a v = .error (.outOfBounds .mem a)) ∧
  (∀ (s : State) (v : Int), s.status = .running → s.pc.toNat ≤ 256 →
    step s = .next (takeFault (.outOfBounds .mem v) s) → v = 256 ∨ v = 257 ∨ v = -1)

/-- R26: an instruction that is no control transfer and completes ends with `pc + len`, exactly and without wrapping. -/
def Obligations.PcAdvancesByLength : Prop :=
  (∀ (i : Instr) (s t : State), controlTransfer i = false → Completes i s t →
    t.pc = s.pc + BitVec.ofNat 9 i.opcode.length) ∧
  (∀ (i : Instr) (s t : State), controlTransfer i = false → Completes i s t → s.pc.toNat ≤ 255 →
    t.pc.toNat = s.pc.toNat + i.opcode.length)

/-- R27 and R84: a control transfer that completes leaves an 8-bit target in the program counter, except a JEQ or JNE that
is not taken, which moves on by 2. -/
def Obligations.ControlTransferTargets : Prop :=
  ∀ (i : Instr) (s t : State), controlTransfer i = true → Completes i s t →
    t.pc.toNat ≤ 255 ∨
    (∃ r, ((i = .jeq r ∧ s.eq = .isFalse) ∨ (i = .jne r ∧ s.eq = .isTrue)) ∧ t.pc = s.pc + 2)

/-- R38, R45: memory changes only in a step whose opcode byte is PUSH's or CALL's; that these are 0x45 and 0x50 is R54's map,
the spec's decision D1 (log entry 1, PRESUMED). -/
def Obligations.OnlyPushAndCallChangeMemory : Prop :=
  ∀ s t : State, step s = .next t → t.mem ≠ s.mem →
    s.pc.toNat < 256 ∧ (s.byteAt s.pc.toNat = 0x45 ∨ s.byteAt s.pc.toNat = 0x50)

/-- The memory frame. An instruction that is not PUSH or CALL leaves every byte; PUSH and CALL leave every byte but the one
at `pushAddress`, the address the meaning stores to, computed from the SP before the instruction (R38); a fault leaves every
byte (R21, D9). -/
def Obligations.MemoryFrame : Prop :=
  ∀ (i : Instr) (s t : State), exec i s = .next t →
    (storesByte i = false → ∀ a : Nat, t.byteAt a = s.byteAt a) ∧
    (storesByte i = true → ∀ a : Nat, (a : Int) ≠ pushAddress s.regs[7] → t.byteAt a = s.byteAt a) ∧
    (t.status = .faulted → s.status ≠ .faulted → ∀ a : Nat, t.byteAt a = s.byteAt a)

/-- The register frame: a register that is not the destination (nor SP, for PUSH, POP, CALL and RET) keeps its value and its
written bit, and no instruction takes a register's value away (R24, R25, R85). -/
def Obligations.RegisterFrame : Prop :=
  ∀ (i : Instr) (s t : State) (k : RegId), exec i s = .next t →
    (¬ mayWrite i k → t.regs[k] = s.regs[k] ∧ t.written[k] = s.written[k]) ∧
    (s.written[k] = true → t.written[k] = true)

/-- R21 and R98: a step that faults changes nothing but the run state and the fault record, whose `pc` is the faulting
instruction's (D9). -/
def Obligations.FaultsArePrecise : Prop :=
  ∀ s t : State, s.status = .running → step s = .next t → t.status = .faulted →
    ∃ c : FaultCause, c ≠ .unsupportedALUOperation ∧
      t = { s with status := .faulted, fault := some (c.recordAt s.pc) }

/-- The invariant `State.Inv` is kept by every step. -/
def Obligations.StepKeepsInvariant : Prop :=
  ∀ s t : State, s.Inv → step s = .next t → t.Inv

/-- R96, R67: what stands in the slot of a register that holds no value can never be seen. Two states that differ at most
there step to states that differ at most there, so the reset fill of R0 to R6 (log entry 2) is not observable. -/
def Obligations.UnwrittenRegistersAreUnobservable : Prop :=
  ∀ s s' t : State, AgreeOnWritten s s' → step s = .next t → ∃ t', step s' = .next t' ∧ AgreeOnWritten t t'

/-- R81: a balanced sequence of PUSH and POP that names no R7 and raises no fault does to the registers what an ideal
last-in-first-out stack does, and SP with the bytes above it IS that stack; with as many pushes as pops SP is back. -/
def Obligations.StackSequenceIsLifo : Prop :=
  ∀ (ops : List StackOp) (s t : State) (g : Vector Byte 8) (st : List Byte),
    (∀ op ∈ ops, op.reg ≠ 7) → ghostRun ops s.regs [] = some (g, st) → RunsTo (ops.map StackOp.instr) s t →
    (∀ i : RegId, i ≠ 7 → t.regs[i] = g[i]) ∧
    t.regs[7].toNat + st.length = s.regs[7].toNat ∧
    (∀ (j : Nat) (h : j < st.length), t.byteAt (t.regs[7].toNat + j) = st[j])

/-- R86: from a CALL at address `A`, a RET that finds SP and the byte at SP as CALL left them continues at `A + 2` with SP as
before the CALL. -/
def Obligations.CallThenRetReturns : Prop :=
  ∀ (s t u : State) (r : Byte), Completes (.call r) s t →
    u.regs[7] = t.regs[7] → u.written[7] = true → u.byteAt t.regs[7].toNat = t.byteAt t.regs[7].toNat →
    ∃ v, exec .ret u = .next v ∧ v.pc.toNat = s.pc.toNat + 2 ∧ v.regs[7] = s.regs[7]

/-- R48: a byte that a completed PUSH or CALL stores, R7 included, is what the very next step fetches at its address, as
the opcode or as an operand: the step runs whatever the bytes at the program counter then decode to. What is stored is the
register's value for PUSH (the decremented SP for R7, D12) and the return address for CALL. -/
def Obligations.StoredByteIsFetchedNext : Prop :=
  ∀ (s t : State) (r : Byte) (_ : r.toNat < 8), s.status = .running →
    (Completes (.push r) s t →
      SeenByNextStep t (s.regs[7].toNat - 1)
        (if r.toNat = 7 then BitVec.ofNat 8 (s.regs[7].toNat - 1) else s.regs[r.toNat])) ∧
    (Completes (.call r) s t →
      SeenByNextStep t (s.regs[7].toNat - 1) (BitVec.ofNat 8 (s.pc.toNat + 2)))

/-- The canonical form of memory: two memories in it that list the same byte, or none, at every address are equal data (log
entry 3). -/
def Obligations.CanonicalMemoryIsUnique : Prop :=
  ∀ m m' : Memory, m.wf = true → m'.wf = true → (∀ a : Nat, m.lookup a = m'.lookup a) → m = m'
end

