-- ==== Sys2Proof/Laws/State.lean ====
section
/-! SUPPORT. One lemma per field per update of the state, each by rfl, so that no proof unfolds an update. -/

namespace Sys2Proof.Machine

/-! ### writeReg -/

@[simp] theorem writeReg_regs (s : State) (i : RegId) (v : Byte) : (s.writeReg i v).regs = s.regs.set i v := rfl
@[simp] theorem writeReg_written (s : State) (i : RegId) (v : Byte) : (s.writeReg i v).written = s.written.set i true := rfl
@[simp] theorem writeReg_pc (s : State) (i : RegId) (v : Byte) : (s.writeReg i v).pc = s.pc := rfl
@[simp] theorem writeReg_eq (s : State) (i : RegId) (v : Byte) : (s.writeReg i v).eq = s.eq := rfl
@[simp] theorem writeReg_status (s : State) (i : RegId) (v : Byte) : (s.writeReg i v).status = s.status := rfl
@[simp] theorem writeReg_out (s : State) (i : RegId) (v : Byte) : (s.writeReg i v).out = s.out := rfl
@[simp] theorem writeReg_fault (s : State) (i : RegId) (v : Byte) : (s.writeReg i v).fault = s.fault := rfl
@[simp] theorem writeReg_mem (s : State) (i : RegId) (v : Byte) : (s.writeReg i v).mem = s.mem := rfl

/-! ### setPc -/

@[simp] theorem setPc_regs (s : State) (p : PcWord) : (s.setPc p).regs = s.regs := rfl
@[simp] theorem setPc_written (s : State) (p : PcWord) : (s.setPc p).written = s.written := rfl
@[simp] theorem setPc_pc (s : State) (p : PcWord) : (s.setPc p).pc = p := rfl
@[simp] theorem setPc_eq (s : State) (p : PcWord) : (s.setPc p).eq = s.eq := rfl
@[simp] theorem setPc_status (s : State) (p : PcWord) : (s.setPc p).status = s.status := rfl
@[simp] theorem setPc_out (s : State) (p : PcWord) : (s.setPc p).out = s.out := rfl
@[simp] theorem setPc_fault (s : State) (p : PcWord) : (s.setPc p).fault = s.fault := rfl
@[simp] theorem setPc_mem (s : State) (p : PcWord) : (s.setPc p).mem = s.mem := rfl

/-! ### advance -/

@[simp] theorem advance_regs (s : State) (n : Nat) : (s.advance n).regs = s.regs := rfl
@[simp] theorem advance_written (s : State) (n : Nat) : (s.advance n).written = s.written := rfl
@[simp] theorem advance_pc (s : State) (n : Nat) : (s.advance n).pc = s.pc + BitVec.ofNat 9 n := rfl
@[simp] theorem advance_eq (s : State) (n : Nat) : (s.advance n).eq = s.eq := rfl
@[simp] theorem advance_status (s : State) (n : Nat) : (s.advance n).status = s.status := rfl
@[simp] theorem advance_out (s : State) (n : Nat) : (s.advance n).out = s.out := rfl
@[simp] theorem advance_fault (s : State) (n : Nat) : (s.advance n).fault = s.fault := rfl
@[simp] theorem advance_mem (s : State) (n : Nat) : (s.advance n).mem = s.mem := rfl

/-! ### setFlag -/

@[simp] theorem setFlag_regs (s : State) (f : CompareFlag) : (s.setFlag f).regs = s.regs := rfl
@[simp] theorem setFlag_written (s : State) (f : CompareFlag) : (s.setFlag f).written = s.written := rfl
@[simp] theorem setFlag_pc (s : State) (f : CompareFlag) : (s.setFlag f).pc = s.pc := rfl
@[simp] theorem setFlag_eq (s : State) (f : CompareFlag) : (s.setFlag f).eq = f := rfl
@[simp] theorem setFlag_status (s : State) (f : CompareFlag) : (s.setFlag f).status = s.status := rfl
@[simp] theorem setFlag_out (s : State) (f : CompareFlag) : (s.setFlag f).out = s.out := rfl
@[simp] theorem setFlag_fault (s : State) (f : CompareFlag) : (s.setFlag f).fault = s.fault := rfl
@[simp] theorem setFlag_mem (s : State) (f : CompareFlag) : (s.setFlag f).mem = s.mem := rfl

/-! ### setStatus -/

@[simp] theorem setStatus_regs (s : State) (st : RunStatus) : (s.setStatus st).regs = s.regs := rfl
@[simp] theorem setStatus_written (s : State) (st : RunStatus) : (s.setStatus st).written = s.written := rfl
@[simp] theorem setStatus_pc (s : State) (st : RunStatus) : (s.setStatus st).pc = s.pc := rfl
@[simp] theorem setStatus_eq (s : State) (st : RunStatus) : (s.setStatus st).eq = s.eq := rfl
@[simp] theorem setStatus_status (s : State) (st : RunStatus) : (s.setStatus st).status = st := rfl
@[simp] theorem setStatus_out (s : State) (st : RunStatus) : (s.setStatus st).out = s.out := rfl
@[simp] theorem setStatus_fault (s : State) (st : RunStatus) : (s.setStatus st).fault = s.fault := rfl
@[simp] theorem setStatus_mem (s : State) (st : RunStatus) : (s.setStatus st).mem = s.mem := rfl

/-! ### emit -/

@[simp] theorem emit_regs (s : State) (v : Byte) : (s.emit v).regs = s.regs := rfl
@[simp] theorem emit_written (s : State) (v : Byte) : (s.emit v).written = s.written := rfl
@[simp] theorem emit_pc (s : State) (v : Byte) : (s.emit v).pc = s.pc := rfl
@[simp] theorem emit_eq (s : State) (v : Byte) : (s.emit v).eq = s.eq := rfl
@[simp] theorem emit_status (s : State) (v : Byte) : (s.emit v).status = s.status := rfl
@[simp] theorem emit_out (s : State) (v : Byte) : (s.emit v).out = s.out ++ [v] := rfl
@[simp] theorem emit_fault (s : State) (v : Byte) : (s.emit v).fault = s.fault := rfl
@[simp] theorem emit_mem (s : State) (v : Byte) : (s.emit v).mem = s.mem := rfl

/-! ### setByte -/

@[simp] theorem setByte_regs (s : State) (a : Nat) (v : Byte) : (s.setByte a v).regs = s.regs := rfl
@[simp] theorem setByte_written (s : State) (a : Nat) (v : Byte) : (s.setByte a v).written = s.written := rfl
@[simp] theorem setByte_pc (s : State) (a : Nat) (v : Byte) : (s.setByte a v).pc = s.pc := rfl
@[simp] theorem setByte_eq (s : State) (a : Nat) (v : Byte) : (s.setByte a v).eq = s.eq := rfl
@[simp] theorem setByte_status (s : State) (a : Nat) (v : Byte) : (s.setByte a v).status = s.status := rfl
@[simp] theorem setByte_out (s : State) (a : Nat) (v : Byte) : (s.setByte a v).out = s.out := rfl
@[simp] theorem setByte_fault (s : State) (a : Nat) (v : Byte) : (s.setByte a v).fault = s.fault := rfl
@[simp] theorem setByte_mem (s : State) (a : Nat) (v : Byte) : (s.setByte a v).mem = s.mem.write a v := rfl

/-! ### takeFault -/

@[simp] theorem takeFault_regs (c : FaultCause) (s : State) : (takeFault c s).regs = s.regs := rfl
@[simp] theorem takeFault_written (c : FaultCause) (s : State) : (takeFault c s).written = s.written := rfl
@[simp] theorem takeFault_pc (c : FaultCause) (s : State) : (takeFault c s).pc = s.pc := rfl
@[simp] theorem takeFault_eq (c : FaultCause) (s : State) : (takeFault c s).eq = s.eq := rfl
@[simp] theorem takeFault_status (c : FaultCause) (s : State) : (takeFault c s).status = .faulted := rfl
@[simp] theorem takeFault_out (c : FaultCause) (s : State) : (takeFault c s).out = s.out := rfl
@[simp] theorem takeFault_fault (c : FaultCause) (s : State) : (takeFault c s).fault = some (c.recordAt s.pc) := rfl
@[simp] theorem takeFault_mem (c : FaultCause) (s : State) : (takeFault c s).mem = s.mem := rfl

/-! ### One register, one byte -/

theorem writeReg_regs_get (s : State) (i j : RegId) (v : Byte) :
    (s.writeReg i v).regs[j] = if i = j then v else s.regs[j] := by
  simp [Vector.getElem_set, Fin.ext_iff]

theorem writeReg_written_get (s : State) (i j : RegId) (v : Byte) :
    (s.writeReg i v).written[j] = if i = j then true else s.written[j] := by
  simp [Vector.getElem_set, Fin.ext_iff]

theorem byteAt_def (s : State) (a : Nat) : s.byteAt a = s.mem.read a := rfl

end Sys2Proof.Machine
end

