-- ==== Sys2Proof/Laws/Decode.lean ====
section
/-! SUPPORT. The laws of the opcode map. -/

namespace Sys2Proof

/-- Every row of the map is found by its byte. -/
theorem Opcode.ofByte_toByte (o : Opcode) : Opcode.ofByte o.toByte = some o := by cases o <;> rfl

/-- A byte is found only as the byte of its row. -/
theorem Opcode.toByte_of_ofByte {b : Byte} {o : Opcode} (h : Opcode.ofByte b = some o) : o.toByte = b := by
  have := List.find?_some h
  simpa using this

theorem Opcode.ofByte_eq_some_iff (b : Byte) (o : Opcode) : Opcode.ofByte b = some o ↔ o.toByte = b :=
  ⟨Opcode.toByte_of_ofByte, fun h => h ▸ Opcode.ofByte_toByte o⟩

/-- A byte is illegal exactly when it is no row's byte. -/
theorem Opcode.ofByte_eq_none_iff (b : Byte) : Opcode.ofByte b = none ↔ ∀ o : Opcode, o.toByte ≠ b := by
  constructor
  · intro h o ho
    rw [← ho, Opcode.ofByte_toByte] at h
    cases h
  · intro h
    cases hb : Opcode.ofByte b with
    | none => rfl
    | some o => exact absurd (Opcode.toByte_of_ofByte hb) (h o)

theorem Opcode.length_cases (o : Opcode) : o.length = 1 ∨ o.length = 2 ∨ o.length = 3 := by
  cases o <;> simp [Opcode.length, Opcode.format, Format.length]

end Sys2Proof
end

