-- ==== Sys2Proof/Laws/Memory.lean ====
section
/-! SUPPORT. The laws of memory: read after write, and the canonical form is kept. -/

namespace Sys2Proof.Machine

theorem Memory.lookup_write (m : Memory) (a b : Nat) (v : Byte) :
    (m.write a v).lookup b = if a = b then some v else m.lookup b := by
  induction m with
  | nil => simp [Memory.write, Memory.lookup]
  | cons c m ih =>
    obtain ⟨x, w⟩ := c
    simp only [Memory.write]
    split
    · simp [Memory.lookup]
    · split
      · subst a; simp only [Memory.lookup]; split <;> simp_all
      · simp only [Memory.lookup, ih]; split <;> simp_all

/-- Read after write (R46): the byte written, and every other address as before. -/
theorem Memory.read_write (m : Memory) (a b : Nat) (v : Byte) :
    (m.write a v).read b = if a = b then v else m.read b := by
  simp only [Memory.read, Memory.lookup_write]; split <;> rfl

theorem Memory.wfFrom_write (m : Memory) (lo a : Nat) (v : Byte) (ha : a < 256) (hlo : lo ≤ a)
    (hm : m.wfFrom lo = true) : (m.write a v).wfFrom lo = true := by
  induction m generalizing lo with
  | nil => simp [Memory.write, Memory.wfFrom, ha, hlo]
  | cons c m ih =>
    obtain ⟨x, w⟩ := c
    simp only [Memory.wfFrom, Bool.and_eq_true, decide_eq_true_eq] at hm
    simp only [Memory.write]
    split
    · simp only [Memory.wfFrom, Bool.and_eq_true, decide_eq_true_eq, Config.memSize]
      exact ⟨⟨hlo, ha⟩, ⟨by omega, hm.1.2⟩, hm.2⟩
    · split
      · subst a
        simp only [Memory.wfFrom, Bool.and_eq_true, decide_eq_true_eq]
        exact hm
      · simp only [Memory.wfFrom, Bool.and_eq_true, decide_eq_true_eq]
        exact ⟨hm.1, ih (x + 1) (by omega) hm.2⟩

/-- A write to an existing address keeps the canonical form. -/
theorem Memory.write_wf (m : Memory) (a : Nat) (v : Byte) (ha : a < 256) (hm : m.wf = true) :
    (m.write a v).wf = true := Memory.wfFrom_write m 0 a v ha (Nat.zero_le a) hm

/-- Depositing bytes keeps the canonical form, whatever the addresses. -/
theorem Memory.deposit_wf (bs : List Byte) (m : Memory) (a : Nat) (hm : m.wf = true) :
    (m.deposit a bs).wf = true := by
  induction bs generalizing m a with
  | nil => exact hm
  | cons b bs ih =>
    simp only [Memory.deposit]
    apply ih
    split
    · exact Memory.write_wf m a b ‹_› hm
    · exact hm

/-- What a cell holds after a deposit that stays inside the memory. -/
theorem Memory.read_deposit (bs : List Byte) (m : Memory) (a b : Nat) (ha : a + bs.length ≤ 256) :
    (m.deposit a bs).read b =
      if h : a ≤ b ∧ b < a + bs.length then bs[b - a]'(by omega) else m.read b := by
  induction bs generalizing m a with
  | nil => simp only [Memory.deposit, List.length_nil]; rw [dif_neg (by omega)]
  | cons x bs ih =>
    simp only [List.length_cons] at ha
    have hlt : a < 256 := by omega
    simp only [Memory.deposit, if_pos hlt]
    rw [ih _ _ (by omega)]
    by_cases hb : b = a
    · subst hb; simp [Memory.read_write]
    · by_cases h1 : a + 1 ≤ b ∧ b < a + 1 + bs.length
      · rw [dif_pos h1, dif_pos (by simp only [List.length_cons]; omega)]
        obtain ⟨k, rfl⟩ : ∃ k, b = a + 1 + k := ⟨b - (a + 1), by omega⟩
        have e1 : a + 1 + k - (a + 1) = k := by omega
        have e2 : a + 1 + k - a = k + 1 := by omega
        simp only [e1, e2, List.getElem_cons_succ]
      · rw [dif_neg h1, dif_neg (by simp only [List.length_cons]; omega), Memory.read_write,
          if_neg (fun h => hb h.symm)]

@[simp] theorem reset_mem_wf : State.reset.mem.wf = true := rfl

theorem byteAt_setByte (s : State) (a b : Nat) (v : Byte) :
    (s.setByte a v).byteAt b = if a = b then v else s.byteAt b := Memory.read_write s.mem a b v

theorem Memory.bytesFrom_cons (m : Memory) (a : Nat) (h : a < 256) :
    m.bytesFrom a = m.read a :: m.bytesFrom (a + 1) := by
  have e : Config.memSize - a = (Config.memSize - (a + 1)) + 1 := by simp only [Config.memSize]; omega
  simp only [Memory.bytesFrom]
  rw [e, List.range_succ_eq_map]
  simp only [List.map_cons, List.map_map, Nat.add_zero, List.cons.injEq, true_and]
  apply List.map_congr_left
  intro k _
  simp only [Function.comp]
  congr 1
  omega

theorem Memory.bytesFrom_end (m : Memory) (a : Nat) (h : 256 ≤ a) : m.bytesFrom a = [] := by
  have e : Config.memSize - a = 0 := by simp only [Config.memSize]; omega
  simp only [Memory.bytesFrom, e, List.range_zero, List.map_nil]

end Sys2Proof.Machine
end

