-- ==== Sys2Proof/Laws/Ops.lean ====
section
/-! SUPPORT. One spec lemma per shared operation: everything it can answer. Later proofs cite these and do not
unfold the operations. -/

namespace Sys2Proof.Machine

/-! ### Registers and memory -/

theorem readReg_written {s : State} {i : RegId} (h : s.written[i] = true) : readReg s i = .ok s.regs[i] := by
  simp [readReg, h]

theorem readReg_unwritten {s : State} {i : RegId} (h : s.written[i] = false) :
    readReg s i = .error (.uninitializedRegister i) := by simp [readReg, h]

theorem memRead_inside {s : State} {a : Nat} (h : a < 256) : memRead s (a : Int) = .ok (s.byteAt a) := by
  have h' : (0 : Int) ≤ a ∧ (a : Int) < Config.memSize := by simp only [Config.memSize]; omega
  simp only [memRead, h', and_self, if_true, Int.toNat_natCast]

theorem memRead_outside {s : State} {a : Int} (h : a < 0 ∨ 256 ≤ a) : memRead s a = .error (.outOfBounds .mem a) := by
  have h' : ¬((0 : Int) ≤ a ∧ a < Config.memSize) := by simp only [Config.memSize]; omega
  simp only [memRead, h', if_false]

theorem memWrite_inside {s : State} {a : Nat} {v : Byte} (h : a < 256) :
    memWrite s (a : Int) v = .ok (s.setByte a v) := by
  have h' : (0 : Int) ≤ a ∧ (a : Int) < Config.memSize := by simp only [Config.memSize]; omega
  simp only [memWrite, h', and_self, if_true, Int.toNat_natCast]

theorem memWrite_outside {s : State} {a : Int} {v : Byte} (h : a < 0 ∨ 256 ≤ a) :
    memWrite s a v = .error (.outOfBounds .mem a) := by
  have h' : ¬((0 : Int) ≤ a ∧ a < Config.memSize) := by simp only [Config.memSize]; omega
  simp only [memWrite, h', if_false]

/-! ### The stack pointer -/

theorem readSp_written {s : State} (h : s.written[7] = true) : readReg s Config.spIndex = .ok s.regs[7] :=
  readReg_written (i := Config.spIndex) h

theorem readSp_unwritten {s : State} (h : s.written[7] = false) :
    readReg s Config.spIndex = .error (.uninitializedRegister Config.spIndex) :=
  readReg_unwritten (i := Config.spIndex) h

theorem pushAddress_of_ne_zero {sp : Byte} (h : sp.toNat ≠ 0) : pushAddress sp = ((sp.toNat - 1 : Nat) : Int) := by
  simp only [pushAddress]; omega

theorem pushAddress_of_zero {sp : Byte} (h : sp.toNat = 0) : pushAddress sp = -1 := by
  simp only [pushAddress]; omega

/-- Decrementing SP: a fault at 0, else SP less 1. -/
theorem decrementSp_spec {s : State} (h : s.written[7] = true) :
    decrementSp s = if s.regs[7].toNat = 0 then .error (.outOfBounds .mem (-1))
      else .ok (s.writeReg Config.spIndex (BitVec.ofNat 8 (s.regs[7].toNat - 1))) := by
  simp only [decrementSp, readSp_written h, bind, Except.bind]
  by_cases hz : s.regs[7].toNat = 0
  · rw [pushAddress_of_zero hz]; simp [hz]
  · rw [if_neg hz, pushAddress_of_ne_zero hz, if_neg (by omega), BitVec.ofInt_natCast]

theorem popPointer_eq (sp : Byte) : popPointer sp = ((sp.toNat + 1 : Nat) : Int) := by
  simp only [popPointer]; omega

/-- Incrementing SP: a fault at 255, else SP plus 1. -/
theorem incrementSp_spec {s : State} (h : s.written[7] = true) :
    incrementSp s = if s.regs[7].toNat = 255 then .error (.outOfBounds .spovf 256)
      else .ok (s.writeReg Config.spIndex (BitVec.ofNat 8 (s.regs[7].toNat + 1))) := by
  have hlt := s.regs[7].isLt
  simp only [incrementSp, readSp_written h, bind, Except.bind]
  by_cases hz : s.regs[7].toNat = 255
  · rw [popPointer_eq]; simp [hz]
  · rw [if_neg hz, popPointer_eq, if_neg (by omega), BitVec.ofInt_natCast]

/-- A store at SP always lands: SP is a byte. -/
theorem storeAtSp_spec {s : State} (h : s.written[7] = true) (v : Byte) :
    storeAtSp s v = .ok (s.setByte s.regs[7].toNat v) := by
  simp only [storeAtSp, readSp_written h, bind, Except.bind]
  exact memWrite_inside s.regs[7].isLt

/-- A load at SP never faults: SP is a byte (R83). -/
theorem loadAtSp_spec {s : State} (h : s.written[7] = true) : loadAtSp s = .ok (s.byteAt s.regs[7].toNat) := by
  simp only [loadAtSp, readSp_written h, bind, Except.bind]
  exact memRead_inside s.regs[7].isLt

/-! ### Operands and jumps -/

theorem regField_inside {f : Byte} (h : f.toNat < 8) : regField f = .ok ⟨f.toNat, h⟩ := dif_pos h

theorem regField_outside {f : Byte} (h : 8 ≤ f.toNat) : regField f = .error (.outOfBounds .reg f.toNat) :=
  dif_neg (by omega)

theorem jumpToReg_written {s : State} {r : RegId} (h : s.written[r] = true) :
    jumpToReg s r = .ok (s.setPc (pcOfByte s.regs[r])) := by
  simp only [jumpToReg, readReg_written h, bind, Except.bind]

theorem jumpToReg_unwritten {s : State} {r : RegId} (h : s.written[r] = false) :
    jumpToReg s r = .error (.uninitializedRegister r) := by
  simp only [jumpToReg, readReg_unwritten h, bind, Except.bind]

theorem pcOfByte_eq (t : Byte) : pcOfByte t = BitVec.ofNat 9 t.toNat := by
  apply BitVec.eq_of_toNat_eq; simp [pcOfByte]

theorem pcOfByte_toNat (t : Byte) : (pcOfByte t).toNat = t.toNat := by
  have := t.isLt
  simp only [pcOfByte, BitVec.toNat_setWidth]
  omega

theorem returnAddress_fits {s : State} (h : s.pc.toNat + 2 ≤ 255) :
    returnAddress s = .ok (BitVec.ofNat 8 (s.pc.toNat + 2)) := if_neg (by omega)

theorem returnAddress_overflow {s : State} (h : 255 < s.pc.toNat + 2) :
    returnAddress s = .error (.outOfBounds .retaddr ((s.pc.toNat : Int) + 2)) := if_pos h

/-! ### Committing -/

/-- What `commit` answers: always a next state, the body's own or `s` with the fault taken (R21). -/
theorem commit_next_iff (s t : State) (body : Except FaultCause State) :
    commit s body = .next t ↔ (body = .ok t ∨ ∃ c, body = .error c ∧ t = takeFault c s) := by
  cases body with
  | ok u => simp [commit]
  | error c => simp [commit, eq_comm]

/-- Every instruction is the commit of a body: the one place where `exec` is unfolded for rules about all of
them. -/
theorem exec_is_commit (i : Instr) (s : State) : ∃ body, exec i s = commit s body := by
  cases i <;>
    simp only [exec, execHlt, execLdi, execPrn, execAdd, execMul, execCmp, execPush, execPop, execCall, execRet,
      execJmp, execJeq, execJne] <;>
    exact ⟨_, rfl⟩

end Sys2Proof.Machine
end

