-- ==== Sys2Proof/Laws/Fetch.lean ====
section
/-! SUPPORT. What the fetch unit answers (40_fetch_decode_dispatch.md R61 to R63), and the shared bodies of the ALU
instructions and of the conditional jumps. -/

namespace Sys2Proof.Machine

/-! ### The fetch unit -/

/-- An operand byte inside the memory. -/
theorem fetchOperand_inside {s : State} {o : Opcode} {n : Nat} (h : n < o.length) (hp : s.pc.toNat + n < 256) :
    fetchOperand s o n = .ok (s.byteAt (s.pc.toNat + n)) := by
  simp only [fetchOperand, if_pos h]
  exact_mod_cast memRead_inside (s := s) hp

/-- An operand the opcode's length does not have. -/
theorem fetchOperand_absent {s : State} {o : Opcode} {n : Nat} (h : ¬ n < o.length) : fetchOperand s o n = .ok 0 := by
  simp only [fetchOperand, if_neg h]

/-- An operand byte past the last address. -/
theorem fetchOperand_outside {s : State} {o : Opcode} {n : Nat} (h : n < o.length) (hp : 256 ≤ s.pc.toNat + n) :
    fetchOperand s o n = .error (.outOfBounds .mem (s.pc.toNat + n)) := by
  simp only [fetchOperand, if_pos h]
  exact memRead_outside (by omega)

/-- The opcode fetch past the last address (R61). -/
theorem fetch_pc_outside {s : State} (h : 256 ≤ s.pc.toNat) :
    fetch s = .error (.outOfBounds .mem s.pc.toNat) := by
  simp only [fetch]
  rw [memRead_outside (by omega)]
  rfl

/-- An opcode byte of a row: what is left is the operand fetch (R62, R63). -/
theorem fetch_of_row {s : State} {o : Opcode} (hpc : s.pc.toNat < 256) (hb : s.byteAt s.pc.toNat = o.toByte) :
    fetch s = (do
      let f1 ← fetchOperand s o 1
      let f2 ← fetchOperand s o 2
      .ok (o.assemble f1 f2)) := by
  simp only [fetch]
  rw [memRead_inside hpc]
  simp only [bind, Except.bind, hb, Opcode.ofByte_toByte]

/-- An opcode byte of no row (R62). -/
theorem fetch_of_no_row {s : State} (hpc : s.pc.toNat < 256) (h : ∀ o : Opcode, o.toByte ≠ s.byteAt s.pc.toNat) :
    fetch s = .error (.unknownInstruction (s.byteAt s.pc.toNat)) := by
  simp only [fetch]
  rw [memRead_inside hpc]
  simp only [bind, Except.bind]
  rw [(Opcode.ofByte_eq_none_iff _).2 h]

/-! ### The step around them -/

theorem step_of_fetch_ok {s : State} {i : Instr} (hs : s.status = .running) (h : fetch s = .ok i) :
    step s = exec i s := by simp only [step, hs, h]

theorem step_of_fetch_error {s : State} {c : FaultCause} (hs : s.status = .running) (h : fetch s = .error c) :
    step s = .next (takeFault c s) := by simp only [step, hs, h]

theorem step_not_running {s : State} (hs : s.status ≠ .running) : step s = .next s := by
  unfold step
  cases h : s.status
  case running => exact absurd h hs
  all_goals rfl

/-! ### Shared bodies -/

/-- The ALU body with both fields in range and both registers written. -/
theorem aluInstr_completes {op : AluOp} {a b : Byte} {s : State} (ha : a.toNat < 8) (hb : b.toNat < 8)
    (wa : s.written[a.toNat] = true) (wb : s.written[b.toNat] = true) :
    aluInstr op a b s =
      .ok ((aluWriteBack s ⟨a.toNat, ha⟩ (alu op s.regs[a.toNat] s.regs[b.toNat])).advance 3) := by
  simp only [aluInstr, regField_inside ha, regField_inside hb, bind, Except.bind,
    readReg_written (i := ⟨a.toNat, ha⟩) wa, readReg_written (i := ⟨b.toNat, hb⟩) wb]
  rfl

/-- A conditional jump with its field in range is decided by the flag alone. -/
theorem condJump_spec {want : Bool} {r : Byte} {s : State} (hr : r.toNat < 8) :
    condJump want r s = (do
      let taken ← jumpTaken want s.eq
      if taken then jumpToReg s ⟨r.toNat, hr⟩ else .ok (s.advance 2)) := by
  simp only [condJump, regField_inside hr, bind, Except.bind]

end Sys2Proof.Machine
end

