-- ==== Sys2Proof/Laws/HostPort.lean ====
section
/-! SUPPORT. What the host's reads answer (70_reset_and_hazards.md R112). -/

namespace Sys2Proof.Machine

/-- The host may read exactly in Halted and Faulted. -/
theorem hostMayRead_iff (st : RunStatus) : hostMayRead st = true ↔ (st = .halted ∨ st = .faulted) := by
  cases st <;> decide

theorem hostRead_stopped {α : Type} {s : State} (h : s.status = .halted ∨ s.status = .faulted) (v : α) :
    hostRead s v = .ok v := if_pos ((hostMayRead_iff _).2 h)

theorem hostRead_not_stopped {α : Type} {s : State} (h : ¬(s.status = .halted ∨ s.status = .faulted)) (v : α) :
    hostRead s v = .error .readBeforeStop := if_neg (fun e => h ((hostMayRead_iff _).1 e))

/-- The events between two states whose traces differ by `vs` are `vs`. -/
theorem printEvents_of_append {s t : State} {vs : List Byte} (h : t.out = s.out ++ vs) : printEvents s t = vs := by
  simp [printEvents, h]

end Sys2Proof.Machine
end

