-- ==== Sys2Proof/Laws/PerInstr.lean ====
section
/-! SUPPORT. Per-instruction statements: the encoding's length is the opcode's (30_encoding.md R50). -/

namespace Sys2Proof.Laws.EncodedLength

/-- The encoding of the instruction has the length its opcode fixes, 1 to 3 bytes (R50). -/
def Statement (i : Instr) : Prop := (encode i).length = i.opcode.length ∧ 1 ≤ (encode i).length ∧ (encode i).length ≤ 3

theorem statement_of_rfl (i : Instr) (h : (encode i).length = i.opcode.length) : Statement i := by
  have := i.opcode.length_cases
  unfold Statement
  omega

theorem hlt : Statement .hlt := statement_of_rfl _ rfl
theorem ldi (r imm : Byte) : Statement (.ldi r imm) := statement_of_rfl _ rfl
theorem prn (r : Byte) : Statement (.prn r) := statement_of_rfl _ rfl
theorem add (a b : Byte) : Statement (.add a b) := statement_of_rfl _ rfl
theorem mul (a b : Byte) : Statement (.mul a b) := statement_of_rfl _ rfl
theorem cmp (a b : Byte) : Statement (.cmp a b) := statement_of_rfl _ rfl
theorem push (r : Byte) : Statement (.push r) := statement_of_rfl _ rfl
theorem pop (r : Byte) : Statement (.pop r) := statement_of_rfl _ rfl
theorem call (r : Byte) : Statement (.call r) := statement_of_rfl _ rfl
theorem ret : Statement .ret := statement_of_rfl _ rfl
theorem jmp (r : Byte) : Statement (.jmp r) := statement_of_rfl _ rfl
theorem jeq (r : Byte) : Statement (.jeq r) := statement_of_rfl _ rfl
theorem jne (r : Byte) : Statement (.jne r) := statement_of_rfl _ rfl

end Sys2Proof.Laws.EncodedLength
end

