-- ==== Sys2Proof/Tests/Slice0.lean ====
section
/-! SUPPORT. The model's own tests: well-formedness, decoding, one step per instruction (expected results from
spec/95_test_vectors.md, the vector named in each comment), and a witness for the hypotheses of each statement. -/

namespace Sys2Proof.Tests

open Sys2Proof Sys2Proof.Machine

/-- A Running machine with `bytes` at `pc` and the registers written in order. -/
def mk (pc : PcWord) (bytes : List Byte) (regs : List (RegId × Byte)) : State :=
  regs.foldl (fun s p => s.writeReg p.1 p.2)
    { State.reset with pc := pc, status := .running, mem := Memory.deposit [] pc.toNat bytes }

/-- The outcome is a next state with a property. -/
def nextSat (o : Host.Outcome State Fault Refusal) (p : State → Bool) : Bool :=
  match o with
  | .next t => p t
  | .fault _ => false
  | .refused _ => false

/-- The step takes the fault `c` and leaves everything else of `s`. -/
def stepTakes (s : State) (c : FaultCause) : Bool := nextSat (step s) (fun t => t = takeFault c s)

/-! ### WellFormed: an ill-formed term for each check -/

theorem test_wf_ldi : (Instr.ldi 8 0).wellFormed = false := by decide
theorem test_wf_prn : (Instr.prn 255).wellFormed = false := by decide
theorem test_wf_add_a : (Instr.add 8 7).wellFormed = false := by decide
theorem test_wf_add_b : (Instr.add 7 8).wellFormed = false := by decide
theorem test_wf_mul_a : (Instr.mul 8 7).wellFormed = false := by decide
theorem test_wf_mul_b : (Instr.mul 7 8).wellFormed = false := by decide
theorem test_wf_cmp_a : (Instr.cmp 8 7).wellFormed = false := by decide
theorem test_wf_cmp_b : (Instr.cmp 7 8).wellFormed = false := by decide
theorem test_wf_push : (Instr.push 8).wellFormed = false := by decide
theorem test_wf_pop : (Instr.pop 8).wellFormed = false := by decide
theorem test_wf_call : (Instr.call 8).wellFormed = false := by decide
theorem test_wf_jmp : (Instr.jmp 8).wellFormed = false := by decide
theorem test_wf_jeq : (Instr.jeq 8).wellFormed = false := by decide
theorem test_wf_jne : (Instr.jne 8).wellFormed = false := by decide
theorem test_wf_immediate_is_free : (Instr.ldi 7 255).wellFormed = true := by decide

/-! ### Decoding: each word written out bit by bit from 30_encoding.md R54 and R51 -/

theorem test_decode_hlt : decode [0b00000001] = .ok (.hlt, []) := by rfl
theorem test_decode_ldi : decode [0b10000010, 0b00000010, 0b11111110] = .ok (.ldi 2 254, []) := by rfl
theorem test_decode_prn : decode [0b01000111, 0b00000011] = .ok (.prn 3, []) := by rfl
theorem test_decode_add : decode [0b10100000, 0b00000001, 0b00000110] = .ok (.add 1 6, []) := by rfl
theorem test_decode_mul : decode [0b10100010, 0b00000001, 0b00000110] = .ok (.mul 1 6, []) := by rfl
theorem test_decode_cmp : decode [0b10100111, 0b00000001, 0b00000110] = .ok (.cmp 1 6, []) := by rfl
theorem test_decode_push : decode [0b01000101, 0b00000111] = .ok (.push 7, []) := by rfl
theorem test_decode_pop : decode [0b01000110, 0b00000101] = .ok (.pop 5, []) := by rfl
theorem test_decode_call : decode [0b01010000, 0b00000001] = .ok (.call 1, []) := by rfl
theorem test_decode_ret : decode [0b00010001, 0b00000001] = .ok (.ret, [1]) := by rfl
theorem test_decode_jmp : decode [0b01010100, 0b00000010] = .ok (.jmp 2, []) := by rfl
theorem test_decode_jeq : decode [0b01010101, 0b00000010] = .ok (.jeq 2, []) := by rfl
theorem test_decode_jne : decode [0b01010110, 0b00001001] = .ok (.jne 9, []) := by rfl
/-- V-FD3: the map has 0x82, not 0x02. -/
theorem test_decode_no_bit_fields : decode [0x02, 0, 0] = .error (.unknownOpcode 0x02) := by rfl
/-- 243 of the 256 bytes are illegal (R56). -/
theorem test_decode_243_illegal :
    ((List.range 256).filter (fun n => (Opcode.ofByte (BitVec.ofNat 8 n)).isNone)).length = 243 := by
  decide +kernel
/-- Byte 1 is bits 15..8 of a table word, byte 2 is bits 23..16. -/
theorem test_table_word : decodeTableWord 24 0x090082 = some (.ldi 0 9) := by decide
theorem test_table_word_first_byte_only : decodeTableWord 8 0x0900A0 = some (.add 0 0) := by decide
theorem test_fetch_word_runs :
    nextSat (step (State.reset.withFetchWord 24 0x090082)) (fun t => t.regs[0] = 9 && t.pc = 3) = true := by decide

/-! ### Fetch and dispatch -/

/-- V-FD1. -/
theorem test_unknown_opcode : stepTakes (mk 0 [0x00] []) (.unknownInstruction 0x00) = true := by decide
/-- V-FD4. -/
theorem test_fetch_at_256 : stepTakes (mk 256 [] []) (.outOfBounds .mem 256) = true := by decide
/-- V-FD6. -/
theorem test_operand_fetch_past_end : stepTakes (mk 254 [0x82, 0x00] []) (.outOfBounds .mem 256) = true := by decide
/-- V-FD8: field a is checked first. -/
theorem test_register_field_a_first : stepTakes (mk 0 [0xA0, 0x09, 0x0A] []) (.outOfBounds .reg 9) = true := by decide
/-- V-FD9: the index is checked even when the jump is not taken. -/
theorem test_register_field_not_taken :
    stepTakes { mk 9 [0x55, 0x09] [] with eq := .isFalse } (.outOfBounds .reg 9) = true := by decide

/-! ### One step per instruction -/

/-- V-B1. -/
theorem test_hlt : nextSat (step (mk 11 [0x01] [])) (fun t => t = { mk 11 [0x01] [] with status := .halted, pc := 12 }) =
    true := by decide
/-- V-B2. -/
theorem test_hlt_at_255 : nextSat (step (mk 255 [0x01] [])) (fun t => t.status = .halted && t.pc = 256) = true := by decide
/-- V-B5. -/
theorem test_ldi_sp : nextSat (step (mk 0 [0x82, 0x07, 0x10] [])) (fun t => t.regs[7] = 16 && t.pc = 3) = true := by decide
/-- V-B6. -/
theorem test_ldi_ends_at_256 : nextSat (step (mk 253 [0x82, 0x01, 0x05] []))
    (fun t => t.regs[1] = 5 && t.written[1] && t.pc = 256) = true := by decide
/-- V-B7. -/
theorem test_prn : nextSat (step (mk 9 [0x47, 0x00] [(0, 72)])) (fun t => t.out = [72] && t.pc = 11) = true := by decide
/-- V-B9. -/
theorem test_prn_unwritten : stepTakes (mk 0 [0x47, 0x03] []) (.uninitializedRegister 3) = true := by decide
/-- V-A2. -/
theorem test_add_wraps : nextSat (step (mk 0 [0xA0, 0x00, 0x01] [(0, 200), (1, 100)]))
    (fun t => t.regs[0] = 44 && t.regs[1] = 100 && t.eq = .unset) = true := by decide
/-- V-A16: a is read first. -/
theorem test_add_unwritten : stepTakes (mk 0 [0xA0, 0x01, 0x02] []) (.uninitializedRegister 1) = true := by decide
/-- V-A6. -/
theorem test_mul : nextSat (step (mk 0 [0xA2, 0x00, 0x01] [(0, 8), (1, 9)])) (fun t => t.regs[0] = 72) = true := by decide
/-- V-A8. -/
theorem test_mul_wraps : nextSat (step (mk 0 [0xA2, 0x00, 0x00] [(0, 255)])) (fun t => t.regs[0] = 1) = true := by decide
/-- V-A12. -/
theorem test_cmp_unequal : nextSat (step { mk 0 [0xA7, 0x00, 0x01] [(0, 5), (1, 6)] with eq := .isTrue })
    (fun t => t.eq = .isFalse && t.regs[0] = 5) = true := by decide
/-- V-A17. -/
theorem test_cmp_unwritten : stepTakes (mk 0 [0xA7, 0x00, 0x01] [(0, 1)]) (.uninitializedRegister 1) = true := by decide
/-- V-S2. -/
theorem test_push_sp : nextSat (step (mk 0 [0x45, 0x07] [])) (fun t => t.regs[7] = 254 && t.byteAt 254 = 254 && t.pc = 2) =
    true := by decide
/-- V-S5: the bound comes before the register read. -/
theorem test_push_full : stepTakes (mk 0 [0x45, 0x03] [(7, 0)]) (.outOfBounds .mem (-1)) = true := by decide
/-- V-S7. -/
theorem test_pop : nextSat (step ((mk 0 [0x46, 0x01] [(7, 254)]).setByte 254 42))
    (fun t => t.regs[1] = 42 && t.regs[7] = 255 && t.byteAt 254 = 42) = true := by decide
/-- V-S10. -/
theorem test_pop_sp_overflow :
    stepTakes ((mk 0 [0x46, 0x07] [(7, 254)]).setByte 254 255) (.outOfBounds .spovf 256) = true := by decide
/-- V-C4. -/
theorem test_call_sp : nextSat (step (mk 3 [0x50, 0x07] [(7, 200)]))
    (fun t => t.regs[7] = 199 && t.byteAt 199 = 5 && t.pc = 199) = true := by decide
/-- V-C2. -/
theorem test_call_at_254 : stepTakes (mk 254 [0x50, 0x00] [(0, 254)]) (.outOfBounds .retaddr 256) = true := by decide
/-- V-C6. -/
theorem test_ret : nextSat (step ((mk 0 [0x11] [(7, 254)]).setByte 254 8)) (fun t => t.pc = 8 && t.regs[7] = 255) = true := by
  decide
/-- V-C7. -/
theorem test_ret_empty : stepTakes (mk 0 [0x11] []) (.outOfBounds .spovf 256) = true := by decide
/-- V-C9. -/
theorem test_jmp : nextSat (step (mk 0 [0x54, 0x02] [(2, 255)])) (fun t => t.pc = 255) = true := by decide
/-- V-C10. -/
theorem test_jmp_unwritten : stepTakes (mk 0 [0x54, 0x02] []) (.uninitializedRegister 2) = true := by decide
/-- V-C11. -/
theorem test_jeq_taken : nextSat (step { mk 12 [0x55, 0x02] [(2, 19)] with eq := .isTrue }) (fun t => t.pc = 19) = true := by
  decide
/-- V-C13. -/
theorem test_jeq_unset : stepTakes (mk 12 [0x55, 0x02] [(2, 19)]) .unsetComparisonFlag = true := by decide
/-- V-C14. -/
theorem test_jne_taken : nextSat (step { mk 20 [0x56, 0x03] [(3, 12)] with eq := .isFalse }) (fun t => t.pc = 12) = true := by
  decide
/-- V-C17: the register is not read when the jump is not taken. -/
theorem test_jne_not_taken : nextSat (step { mk 6 [0x56, 0x05] [] with eq := .isTrue }) (fun t => t.pc = 8) = true := by decide

/-! ### The host's moves -/

/-- P1's first two bytes, loaded and started. -/
theorem test_boot : nextSat (boot [0x82, 0x00]) (fun s => s.status = .running && s.pc = 0 && s.byteAt 0 = 0x82) = true := by
  decide

/-- R112: no read while Running, reads and the trace after HLT, the record after a fault. -/
theorem test_host_reads :
    hostPc (mk 11 [0x01] []) = .error .readBeforeStop ∧
      nextSat (step (mk 11 [0x01] [])) (fun t => (hostPc t).toOption = some 12 && (hostFault t).toOption.isNone) = true ∧
      nextSat (step (mk 0 [0x00] [])) (fun t => (hostFault t).toOption = some t.fault && t.fault.isSome) = true :=
  ⟨rfl, by decide, by decide⟩

/-! ### Witnesses: a state and operands that meet the hypotheses of a statement, clause by clause -/

theorem witness_BootLoadsImageAndRuns :
    (List.replicate 256 (1 : Byte)).length ≤ 256 ∧ 255 < (List.replicate 256 (1 : Byte)).length := by
  rw [List.length_replicate]; omega
theorem witness_BootLoadsImageAndRuns_empty : ([] : List Byte).length ≤ 256 := by decide
theorem witness_HostMovesOnlyFromIdle_outside : (mk 0 [] []).status ≠ .idle := by decide
theorem witness_HostMovesOnlyFromIdle_tooLong :
    State.reset.status = .idle ∧ 256 < (List.replicate 257 (1 : Byte)).length := by
  rw [List.length_replicate]; exact ⟨rfl, by omega⟩
theorem witness_HostReadsOnlyWhenStopped :
    State.reset.status = .idle ∧ (mk 0 [] []).status = .running ∧ { mk 0 [] [] with status := .halted }.status = .halted ∧
      (takeFault .unsetComparisonFlag (mk 0 [] [])).status = .faulted ∧ State.reset.status ≠ .faulted := by decide
theorem witness_PrintEventsComeFromRunningPrn :
    ∃ t, step (mk 0 [0x47, 0x07] []) = .next t ∧ printEvents (mk 0 [0x47, 0x07] []) t ≠ [] := ⟨_, rfl, by decide⟩
theorem witness_DecodeAcceptsOnlyEncodings : decode [0x11, 0x47] = .ok (.ret, [0x47]) := by rfl
theorem witness_StepRunsDecodedInstruction :
    (mk 255 [0x01] []).status = .running ∧ (mk 255 [0x01] []).pc.toNat < 256 ∧
      decode ((mk 255 [0x01] []).mem.bytesFrom 255) = .ok (.hlt, []) := ⟨by decide, by decide, by rfl⟩
theorem witness_FetchAt256Faults : (mk 256 [] []).status = .running ∧ (mk 256 [] []).pc.toNat = 256 := by decide
theorem witness_UnknownOpcodeFaults :
    (mk 255 [0xFF] []).status = .running ∧ (mk 255 [0xFF] []).pc.toNat < 256 ∧
      (∀ o : Opcode, o.toByte ≠ (mk 255 [0xFF] []).byteAt 255) := by
  refine ⟨by decide, by decide, ?_⟩
  intro o; cases o <;> decide
theorem witness_OperandFetchPastEndFaults :
    (mk 254 [0x82, 0] []).status = .running ∧ (mk 254 [0x82, 0] []).pc.toNat < 256 ∧
      (mk 254 [0x82, 0] []).byteAt 254 = Opcode.ldi.toByte ∧ 256 < 254 + Opcode.ldi.length := by decide
theorem witness_RegisterFieldIsWholeByte : (8 : Byte).toNat ≥ 8 := by decide
theorem witness_RegisterFieldsCheckedFirst :
    (registerFields (.add 7 8)).find? (fun f => decide (8 ≤ f.toNat)) = some 8 := by decide
theorem witness_RunStateTransitions :
    (mk 0 [0x01] []).status = .running ∧ State.reset.status ≠ .running ∧
      { mk 0 [] [] with status := .halted }.status ≠ .running := by decide
theorem witness_LdiWritesImmediate : (7 : Byte).toNat < 8 := by decide
theorem witness_PrnEmitsRegister :
    (7 : Byte).toNat < 8 ∧ (mk 0 [] []).written[7] = true ∧ (mk 0 [] []).written[6] = false := by decide
theorem witness_AluArithmeticLaws :
    ∃ t, Completes (.add 0 7) (mk 0 [] [(0, 200)]) t := ⟨_, rfl, by decide⟩
theorem witness_AddSumsModulo256 :
    (0 : Byte).toNat < 8 ∧ (7 : Byte).toNat < 8 ∧ (mk 0 [] [(0, 255)]).written[0] = true ∧
      (mk 0 [] [(0, 255)]).written[7] = true := by decide
theorem witness_AddSumsModulo256_a : (mk 0 [] []).written[6] = false := by decide
theorem witness_AddSumsModulo256_b : (mk 0 [] []).written[7] = true ∧ (mk 0 [] []).written[0] = false := by decide
theorem witness_MulMultipliesModulo256 :
    (6 : Byte).toNat < 8 ∧ (mk 0 [] [(6, 16)]).written[6] = true ∧ (mk 0 [] [(6, 16)]).written[7] = true := by decide
theorem witness_MulMultipliesModulo256_a : (mk 0 [] []).written[0] = false := by decide
theorem witness_MulMultipliesModulo256_b : (mk 0 [] []).written[7] = true ∧ (mk 0 [] []).written[6] = false := by decide
theorem witness_CmpSetsFlagToEquality :
    (7 : Byte).toNat < 8 ∧ (mk 0 [] [(0, 255)]).written[0] = true ∧ (mk 0 [] [(0, 255)]).written[7] = true := by decide
theorem witness_CmpSetsFlagToEquality_a : (mk 0 [] []).written[5] = false := by decide
theorem witness_CmpSetsFlagToEquality_b : (mk 0 [] []).written[7] = true ∧ (mk 0 [] []).written[5] = false := by decide
theorem witness_PushDecrementsThenStores :
    (7 : Byte).toNat < 8 ∧ (mk 0 [] [(7, 1)]).written[7] = true ∧ (mk 0 [] [(7, 1)]).regs[7].toNat ≠ 0 := by decide
theorem witness_PushDecrementsThenStores_full :
    (mk 0 [] [(7, 0)]).written[7] = true ∧ (mk 0 [] [(7, 0)]).regs[7].toNat = 0 := by decide
theorem witness_PushDecrementsThenStores_unwritten :
    (mk 0 [] [(7, 1)]).regs[7].toNat ≠ 0 ∧ (mk 0 [] [(7, 1)]).written[6] = false := by decide
theorem witness_PopReadsThenIncrements :
    (6 : Byte).toNat ≠ 7 ∧ (mk 0 [] [(7, 254)]).written[7] = true ∧ (mk 0 [] [(7, 254)]).regs[7].toNat ≠ 255 := by decide
theorem witness_PopReadsThenIncrements_sp :
    (7 : Byte).toNat = 7 ∧ (((mk 0 [] []).setByte 255 254).byteAt 255).toNat ≠ 255 := by decide
theorem witness_PopReadsThenIncrements_empty : (6 : Byte).toNat ≠ 7 ∧ (mk 0 [] []).regs[7].toNat = 255 := by decide
theorem witness_PopReadsThenIncrements_sp_overflow :
    (7 : Byte).toNat = 7 ∧ (((mk 0 [] [(7, 0)]).setByte 0 255).byteAt 0).toNat = 255 := by decide
theorem witness_CallStoresReturnAddressAndJumps :
    (7 : Byte).toNat < 8 ∧ (mk 253 [] [(7, 1)]).written[7] = true ∧ (mk 253 [] [(7, 1)]).regs[7].toNat ≠ 0 ∧
      (mk 253 [] [(7, 1)]).pc.toNat + 2 ≤ 255 := by decide
theorem witness_CallStoresReturnAddressAndJumps_full :
    (mk 254 [] [(7, 0)]).written[7] = true ∧ (mk 254 [] [(7, 0)]).regs[7].toNat = 0 := by decide
theorem witness_CallStoresReturnAddressAndJumps_overflow :
    (mk 254 [] []).regs[7].toNat ≠ 0 ∧ 255 < (mk 254 [] []).pc.toNat + 2 := by decide
theorem witness_CallStoresReturnAddressAndJumps_unwritten :
    (mk 253 [] []).regs[7].toNat ≠ 0 ∧ (mk 253 [] []).pc.toNat + 2 ≤ 255 ∧ (mk 253 [] []).written[4] = false := by decide
theorem witness_RetPopsProgramCounter :
    (mk 0 [] [(7, 254)]).written[7] = true ∧ (mk 0 [] [(7, 254)]).regs[7].toNat ≠ 255 := by decide
theorem witness_RetPopsProgramCounter_empty :
    (mk 0 [] []).written[7] = true ∧ (mk 0 [] []).regs[7].toNat = 255 := by decide
theorem witness_JmpSetsProgramCounter :
    (7 : Byte).toNat < 8 ∧ (mk 0 [] []).written[7] = true ∧ (mk 0 [] []).written[6] = false := by decide
theorem witness_JeqJumpsWhenTrue :
    (7 : Byte).toNat < 8 ∧ { mk 0 [] [] with eq := .isTrue }.eq = .isTrue ∧
      { mk 0 [] [] with eq := .isTrue }.written[7] = true := by decide
theorem witness_JeqJumpsWhenTrue_not_taken : { mk 0 [] [] with eq := .isFalse }.eq = .isFalse := by decide
theorem witness_JeqJumpsWhenTrue_unset : (mk 0 [] []).eq = .unset := by decide
theorem witness_JeqJumpsWhenTrue_unwritten :
    { mk 0 [] [] with eq := .isTrue }.eq = .isTrue ∧ { mk 0 [] [] with eq := .isTrue }.written[6] = false := by decide
theorem witness_JneJumpsWhenFalse :
    (7 : Byte).toNat < 8 ∧ { mk 0 [] [] with eq := .isFalse }.eq = .isFalse ∧
      { mk 0 [] [] with eq := .isFalse }.written[7] = true := by decide
theorem witness_JneJumpsWhenFalse_not_taken : { mk 0 [] [] with eq := .isTrue }.eq = .isTrue := by decide
theorem witness_JneJumpsWhenFalse_unset : (mk 0 [] []).eq = .unset := by decide
theorem witness_JneJumpsWhenFalse_unwritten :
    { mk 0 [] [] with eq := .isFalse }.eq = .isFalse ∧ { mk 0 [] [] with eq := .isFalse }.written[6] = false := by decide
theorem witness_ComparisonFlagRule :
    ∃ t, Completes (.cmp 7 7) (mk 0 [] []) t ∧ t.eq ≠ (mk 0 [] []).eq := ⟨_, ⟨rfl, by decide⟩, by decide⟩
theorem witness_ComparisonFlagRule_unset :
    ∃ t, exec (.ldi 0 1) (mk 0 [] []) = .next t ∧ t.eq = .unset ∧ (∀ r, Instr.ldi 0 1 ≠ .jeq r ∧ Instr.ldi 0 1 ≠ .jne r) :=
  ⟨_, rfl, by decide, fun _ => ⟨nofun, nofun⟩⟩
theorem witness_OutputTraceRule :
    ∃ t, Completes (.prn 7) (mk 0 [] []) t ∧ t.out ≠ (mk 0 [] []).out := ⟨_, ⟨rfl, by decide⟩, by decide⟩
theorem witness_HltIsTheOnlyCleanEnd : (mk 0 [] []).status = .running ∧ ∃ t, exec .hlt (mk 0 [] []) = .next t :=
  ⟨by decide, _, rfl⟩
theorem witness_MemoryAccessNeverWraps :
    (0 : Int) ≤ 255 ∧ (255 : Int) < 256 ∧ ((-1 : Int) < 0 ∨ (256 : Int) ≤ -1) ∧ ((256 : Int) < 0 ∨ (256 : Int) ≤ 256) := by
  decide
theorem witness_MemoryAccessNeverWraps_step :
    (mk 256 [] []).status = .running ∧ (mk 256 [] []).pc.toNat ≤ 256 ∧
      step (mk 256 [] []) = .next (takeFault (.outOfBounds .mem 256) (mk 256 [] [])) := ⟨by decide, by decide, rfl⟩
theorem witness_PcAdvancesByLength :
    controlTransfer (.ldi 7 255) = false ∧ (mk 255 [] []).pc.toNat ≤ 255 ∧ ∃ t, Completes (.ldi 7 255) (mk 255 [] []) t :=
  ⟨rfl, by decide, _, rfl, by decide⟩
theorem witness_ControlTransferTargets :
    controlTransfer (.jmp 7) = true ∧ ∃ t, Completes (.jmp 7) (mk 0 [] []) t := ⟨rfl, _, rfl, by decide⟩
theorem witness_ControlTransferTargets_not_taken :
    ∃ t, Completes (.jeq 0) { mk 254 [] [] with eq := .isFalse } t ∧ t.pc = 256 := ⟨_, ⟨rfl, by decide⟩, by decide⟩
theorem witness_OnlyPushAndCallChangeMemory :
    ∃ t, step (mk 0 [0x45, 0x07] []) = .next t ∧ t.mem ≠ (mk 0 [0x45, 0x07] []).mem := ⟨_, rfl, by decide⟩
theorem witness_MemoryFrame :
    storesByte (.push 7) = true ∧ (255 : Int) ≠ pushAddress (mk 0 [] []).regs[7] ∧ ∃ t, exec (.push 7) (mk 0 [] []) = .next t :=
  ⟨rfl, by decide, _, rfl⟩
theorem witness_MemoryFrame_not_storing : storesByte .hlt = false ∧ ∃ t, exec .hlt (mk 0 [] []) = .next t := ⟨rfl, _, rfl⟩
theorem witness_MemoryFrame_fault :
    ∃ t, exec (.push 7) (mk 0 [] [(7, 0)]) = .next t ∧ t.status = .faulted ∧ (mk 0 [] [(7, 0)]).status ≠ .faulted :=
  ⟨_, rfl, by decide, by decide⟩
theorem witness_RegisterFrame :
    (∃ t, exec (.pop 6) (mk 0 [] [(7, 254)]) = .next t) ∧ ¬ mayWrite (.pop 6) 5 ∧ (mk 0 [] [(7, 254)]).written[7] = true := by
  refine ⟨⟨_, rfl⟩, ?_, by decide⟩
  simp [mayWrite, Config.spIndex]
theorem witness_FaultsArePrecise :
    (mk 0 [0x00] []).status = .running ∧ ∃ t, step (mk 0 [0x00] []) = .next t ∧ t.status = .faulted :=
  ⟨by decide, _, rfl, by decide⟩
theorem witness_StepKeepsInvariant : (mk 255 [0x01] []).Inv ∧ ∃ t, step (mk 255 [0x01] []) = .next t :=
  ⟨⟨by decide, by decide, by decide, by decide, fun _ h => nomatch h⟩, _, rfl⟩
theorem witness_UnwrittenRegistersAreUnobservable :
    AgreeOnWritten (mk 0 [0x47, 0x00] [])
      { mk 0 [0x47, 0x00] [] with regs := (mk 0 [0x47, 0x00] []).regs.set 0 99 } ∧
      ∃ t, step (mk 0 [0x47, 0x00] []) = .next t :=
  ⟨⟨rfl, by decide, rfl, rfl, rfl, rfl, rfl, rfl⟩, _, rfl⟩
theorem witness_StackSequenceIsLifo :
    ∃ t g, (∀ op ∈ [StackOp.push 0, .pop 6], op.reg ≠ 7) ∧
      ghostRun [.push 0, .pop 6] (mk 0 [] [(0, 9)]).regs [] = some (g, []) ∧
      RunsTo ([StackOp.push 0, .pop 6].map StackOp.instr) (mk 0 [] [(0, 9)]) t :=
  ⟨_, _, by decide, rfl, _, ⟨rfl, by decide⟩, _, ⟨rfl, by decide⟩, rfl⟩
theorem witness_CallThenRetReturns :
    ∃ t, Completes (.call 7) (mk 253 [] []) t ∧ t.written[7] = true := ⟨_, ⟨rfl, by decide⟩, by decide⟩
/-- PUSH R7 stores 11 at 11, where the program counter then stands: no row has that byte. -/
theorem witness_StoredByteIsFetchedNext_push :
    (mk 9 [0x45, 0x07] [(7, 12)]).status = .running ∧
      ∃ t, Completes (.push 7) (mk 9 [0x45, 0x07] [(7, 12)]) t ∧ t.pc.toNat = 11 ∧
        ∀ o : Opcode, o.toByte ≠ (11 : Byte) := by
  refine ⟨by decide, _, ⟨rfl, by decide⟩, by decide, ?_⟩
  intro o; cases o <;> decide
/-- PUSH R0 stores the operand of the JMP the program counter then stands at. -/
theorem witness_StoredByteIsFetchedNext_operand :
    ∃ t, Completes (.push 0) (mk 9 [0x45, 0x00, 0x54] [(0, 2), (7, 13)]) t ∧ t.pc.toNat ≤ 12 ∧
      decode ((t.mem.bytesFrom t.pc.toNat).take 2) = .ok (.jmp 2, []) := ⟨_, ⟨rfl, by decide⟩, by decide, rfl⟩
/-- CALL R7 at 15 stores 17, RET's byte, at the address it jumps to. -/
theorem witness_StoredByteIsFetchedNext_call :
    ∃ t, Completes (.call 7) (mk 15 [0x50, 0x07] []) t ∧ t.pc.toNat = 254 ∧
      decode ((t.mem.bytesFrom t.pc.toNat).take 1) = .ok (.ret, []) := ⟨_, ⟨rfl, by decide⟩, by decide, rfl⟩
theorem witness_CanonicalMemoryIsUnique : Memory.wf [(0, 1), (255, 2)] = true := by decide

end Sys2Proof.Tests
end

section
/-! The invariant of a state without a fault record, and the reset state as the first such state. -/

namespace Sys2Proof.Machine

/-- With no fault record in a status other than Faulted, the two clauses of the invariant about the record hold at
once (R32, R98), and only memory, `pc` and SP are left to show. -/
theorem State.inv_of_no_record {s : State} (hmem : s.mem.wf = true) (hpc : s.pc.toNat ≤ 256)
    (hsp : s.written[Config.spIndex] = true) (hfault : s.fault = none) (hstatus : s.status ≠ .faulted) : s.Inv where
  memCanonical := hmem
  pcInRange := hpc
  spWritten := hsp
  recordIffFaulted := by simp [hfault, hstatus]
  recordPrecise := by simp [hfault]

/-- Settles O2: reset is Idle without a record, its memory lists no cell, `pc` is 0 and SP alone is written (R106). -/
theorem resetMeetsInvariant : Obligations.ResetMeetsInvariant := by
  unfold Obligations.ResetMeetsInvariant
  have hpc : State.reset.pc.toNat ≤ 256 := by decide
  have hsp : State.reset.written[Config.spIndex] = true := by decide
  have hstatus : State.reset.status ≠ .faulted := by decide
  exact State.inv_of_no_record reset_mem_wf hpc hsp rfl hstatus

end Sys2Proof.Machine
end

section
/-! What each shared operation needs to answer a value rather than a fault: the guards, and the value. They read an
instruction's body backwards, from the state it ends in (00_scope.md R20, 43_stack.md R79). -/

namespace Sys2Proof.Machine

/-- A sequence of statements ends normally exactly when each of its statements does (R21, R65). -/
theorem except_bind_eq_ok {α β : Type} {x : Except FaultCause α} {k : α → Except FaultCause β} {b : β} :
    (x >>= k) = .ok b ↔ ∃ a, x = .ok a ∧ k a = .ok b := by
  cases x <;> simp [bind, Except.bind]

theorem regField_eq_ok {f : Byte} {i : RegId} : regField f = .ok i ↔ ∃ h : f.toNat < 8, i = ⟨f.toNat, h⟩ := by
  by_cases h : f.toNat < 8
  · simp [regField_inside h, h, eq_comm]
  · simp [regField_outside (Nat.le_of_not_lt h), h]

theorem readReg_eq_ok {s : State} {i : RegId} {v : Byte} :
    readReg s i = .ok v ↔ s.written[i] = true ∧ v = s.regs[i] := by
  cases h : s.written[i] with
  | true => simp [readReg_written h, eq_comm]
  | false => simp [readReg_unwritten h]

/-- The state with SP one lower, modulo 256. -/
def State.spDown (s : State) : State := s.writeReg Config.spIndex (BitVec.ofNat 8 (s.regs[7].toNat - 1))

/-- The state with SP one higher, modulo 256. -/
def State.spUp (s : State) : State := s.writeReg Config.spIndex (BitVec.ofNat 8 (s.regs[7].toNat + 1))

theorem decrementSp_eq_ok {s t : State} :
    decrementSp s = .ok t ↔ s.written[7] = true ∧ s.regs[7].toNat ≠ 0 ∧ t = s.spDown := by
  cases h : s.written[7] with
  | true =>
    rw [decrementSp_spec h]
    by_cases hz : s.regs[7].toNat = 0 <;> simp [hz, State.spDown, eq_comm (a := t)]
  | false => simp [decrementSp, readSp_unwritten h, except_bind_eq_ok]

theorem incrementSp_eq_ok {s t : State} :
    incrementSp s = .ok t ↔ s.written[7] = true ∧ s.regs[7].toNat ≠ 255 ∧ t = s.spUp := by
  cases h : s.written[7] with
  | true =>
    rw [incrementSp_spec h]
    by_cases hz : s.regs[7].toNat = 255 <;> simp [hz, State.spUp, eq_comm (a := t)]
  | false => simp [incrementSp, readSp_unwritten h, except_bind_eq_ok]

theorem storeAtSp_eq_ok {s t : State} {v : Byte} :
    storeAtSp s v = .ok t ↔ s.written[7] = true ∧ t = s.setByte s.regs[7].toNat v := by
  cases h : s.written[7] with
  | true => simp [storeAtSp_spec h, eq_comm]
  | false => simp [storeAtSp, readSp_unwritten h, except_bind_eq_ok]

theorem loadAtSp_eq_ok {s : State} {v : Byte} :
    loadAtSp s = .ok v ↔ s.written[7] = true ∧ v = s.byteAt s.regs[7].toNat := by
  cases h : s.written[7] with
  | true => simp [loadAtSp_spec h, eq_comm]
  | false => simp [loadAtSp, readSp_unwritten h, except_bind_eq_ok]

theorem returnAddress_eq_ok {s : State} {ra : Byte} :
    returnAddress s = .ok ra ↔ s.pc.toNat + 2 ≤ 255 ∧ ra = BitVec.ofNat 8 (s.pc.toNat + 2) := by
  by_cases h : s.pc.toNat + 2 ≤ 255
  · simp [returnAddress_fits h, h, eq_comm]
  · simp [returnAddress_overflow (Nat.lt_of_not_le h), h]

theorem jumpToReg_eq_ok {s t : State} {r : RegId} :
    jumpToReg s r = .ok t ↔ s.written[r] = true ∧ t = s.setPc (pcOfByte s.regs[r]) := by
  cases h : s.written[r] with
  | true => simp [jumpToReg_written h, eq_comm]
  | false => simp [jumpToReg_unwritten h]

theorem aluInstr_eq_ok {op : AluOp} {a b : Byte} {s t : State} :
    aluInstr op a b s = .ok t ↔ ∃ (ha : a.toNat < 8) (_ : b.toNat < 8),
      s.written[a.toNat] = true ∧ s.written[b.toNat] = true ∧
      t = (aluWriteBack s ⟨a.toNat, ha⟩ (alu op s.regs[a.toNat] s.regs[b.toNat])).advance 3 := by
  constructor
  · intro h
    simp only [aluInstr, except_bind_eq_ok, regField_eq_ok, readReg_eq_ok, Except.ok.injEq] at h
    obtain ⟨_, ⟨ha, rfl⟩, _, ⟨hb, rfl⟩, _, ⟨wa, rfl⟩, _, ⟨wb, rfl⟩, rfl⟩ := h
    exact ⟨ha, hb, wa, wb, rfl⟩
  · rintro ⟨ha, hb, wa, wb, rfl⟩
    exact aluInstr_completes ha hb wa wb

/-- A jump is decided exactly by a flag that is set: to the wanted value if taken, to the other if not (R90, R91). -/
theorem jumpTaken_eq_ok {want taken : Bool} {f : CompareFlag} :
    jumpTaken want f = .ok taken ↔ f = compareFlagOf (taken == want) := by
  cases f <;> cases want <;> cases taken <;> simp [jumpTaken, compareFlagOf]

theorem condJump_eq_ok {want : Bool} {r : Byte} {s t : State} (h : condJump want r s = .ok t) :
    ∃ hr : r.toNat < 8,
      (s.eq = compareFlagOf want ∧ s.written[r.toNat] = true ∧ t = s.setPc (pcOfByte s.regs[r.toNat])) ∨
      (s.eq = compareFlagOf (!want) ∧ t = s.advance 2) := by
  simp only [condJump, except_bind_eq_ok, regField_eq_ok, jumpTaken_eq_ok] at h
  obtain ⟨_, ⟨hr, rfl⟩, taken, hflag, h⟩ := h
  refine ⟨hr, ?_⟩
  cases taken with
  | true => exact .inl ⟨by simpa using hflag, jumpToReg_eq_ok.1 h⟩
  | false =>
    cases h
    exact .inr ⟨by simpa using hflag, rfl⟩

end Sys2Proof.Machine
end

section
/-! What each instruction does to the state when it runs to its end, said once: rules about all instructions read it
off by cases (41_basic.md, 42_alu.md, 43_stack.md, 44_control_transfer.md). -/

namespace Sys2Proof.Machine

/-- `Effect s i t`: the instruction `i` can run to its end in `s`, and `t` is the state it leaves. -/
inductive Effect (s : State) : Instr → State → Prop where
  | hlt : Effect s .hlt ((s.setStatus .halted).advance 1)
  | ldi {r : Byte} (imm : Byte) (hr : r.toNat < 8) :
      Effect s (.ldi r imm) ((s.writeReg ⟨r.toNat, hr⟩ imm).advance 3)
  | prn {r : Byte} (hr : r.toNat < 8) (hw : s.written[r.toNat] = true) :
      Effect s (.prn r) ((s.emit s.regs[r.toNat]).advance 2)
  | add {a b : Byte} (ha : a.toNat < 8) (hb : b.toNat < 8) (wa : s.written[a.toNat] = true)
      (wb : s.written[b.toNat] = true) :
      Effect s (.add a b) ((s.writeReg ⟨a.toNat, ha⟩
        (BitVec.ofNat 8 (s.regs[a.toNat].toNat + s.regs[b.toNat].toNat))).advance 3)
  | mul {a b : Byte} (ha : a.toNat < 8) (hb : b.toNat < 8) (wa : s.written[a.toNat] = true)
      (wb : s.written[b.toNat] = true) :
      Effect s (.mul a b) ((s.writeReg ⟨a.toNat, ha⟩
        (BitVec.ofNat 8 (s.regs[a.toNat].toNat * s.regs[b.toNat].toNat))).advance 3)
  | cmp {a b : Byte} (ha : a.toNat < 8) (hb : b.toNat < 8) (wa : s.written[a.toNat] = true)
      (wb : s.written[b.toNat] = true) :
      Effect s (.cmp a b) ((s.setFlag (compareFlagOf (s.regs[a.toNat] == s.regs[b.toNat]))).advance 3)
  | push {r : Byte} (hr : r.toNat < 8) (hsp : s.written[7] = true) (hne : s.regs[7].toNat ≠ 0)
      (hw : s.spDown.written[r.toNat] = true) :
      Effect s (.push r) ((s.spDown.setByte s.spDown.regs[7].toNat s.spDown.regs[r.toNat]).advance 2)
  | pop {r : Byte} (hr : r.toNat < 8) (hsp : s.written[7] = true)
      (hne : (s.writeReg ⟨r.toNat, hr⟩ (s.byteAt s.regs[7].toNat)).regs[7].toNat ≠ 255) :
      Effect s (.pop r) ((s.writeReg ⟨r.toNat, hr⟩ (s.byteAt s.regs[7].toNat)).spUp.advance 2)
  | call {r : Byte} (hr : r.toNat < 8) (hsp : s.written[7] = true) (hne : s.regs[7].toNat ≠ 0)
      (hra : s.pc.toNat + 2 ≤ 255) (hw : s.spDown.written[r.toNat] = true) :
      Effect s (.call r) ((s.spDown.setByte s.spDown.regs[7].toNat (BitVec.ofNat 8 (s.pc.toNat + 2))).setPc
        (pcOfByte s.spDown.regs[r.toNat]))
  | ret (hsp : s.written[7] = true) (hne : s.regs[7].toNat ≠ 255) :
      Effect s .ret (s.spUp.setPc (pcOfByte (s.byteAt s.regs[7].toNat)))
  | jmp {r : Byte} (hr : r.toNat < 8) (hw : s.written[r.toNat] = true) :
      Effect s (.jmp r) (s.setPc (pcOfByte s.regs[r.toNat]))
  | jeqTaken {r : Byte} (hr : r.toNat < 8) (hflag : s.eq = .isTrue) (hw : s.written[r.toNat] = true) :
      Effect s (.jeq r) (s.setPc (pcOfByte s.regs[r.toNat]))
  | jeqNotTaken {r : Byte} (hr : r.toNat < 8) (hflag : s.eq = .isFalse) : Effect s (.jeq r) (s.advance 2)
  | jneTaken {r : Byte} (hr : r.toNat < 8) (hflag : s.eq = .isFalse) (hw : s.written[r.toNat] = true) :
      Effect s (.jne r) (s.setPc (pcOfByte s.regs[r.toNat]))
  | jneNotTaken {r : Byte} (hr : r.toNat < 8) (hflag : s.eq = .isTrue) : Effect s (.jne r) (s.advance 2)

/-- The next state is the effect of `i`, or `s` with a fault taken (R21). -/
def EffectOrFault (s : State) (i : Instr) (t : State) : Prop := Effect s i t ∨ ∃ c, t = takeFault c s

/-- It is enough to look at the bodies that end normally: a body that raises leaves a fault. -/
theorem effectOrFault_of_commit {s t : State} {i : Instr} {body : Except FaultCause State}
    (hbody : body = .ok t → Effect s i t) (h : commit s body = .next t) : EffectOrFault s i t := by
  obtain hok | ⟨c, _, hc⟩ := (commit_next_iff s t body).1 h
  · exact .inl (hbody hok)
  · exact .inr ⟨c, hc⟩

variable {s t : State} {a b r imm : Byte}

theorem execHlt_effect (h : execHlt s = .next t) : EffectOrFault s .hlt t := by
  refine effectOrFault_of_commit (fun hb => ?_) h
  cases hb
  exact .hlt

theorem execLdi_effect (h : execLdi r imm s = .next t) : EffectOrFault s (.ldi r imm) t := by
  refine effectOrFault_of_commit (fun hb => ?_) h
  simp only [except_bind_eq_ok, regField_eq_ok, Except.ok.injEq] at hb
  obtain ⟨_, ⟨hr, rfl⟩, rfl⟩ := hb
  exact .ldi imm hr

theorem execPrn_effect (h : execPrn r s = .next t) : EffectOrFault s (.prn r) t := by
  refine effectOrFault_of_commit (fun hb => ?_) h
  simp only [except_bind_eq_ok, regField_eq_ok, readReg_eq_ok, Except.ok.injEq] at hb
  obtain ⟨_, ⟨hr, rfl⟩, _, ⟨hw, rfl⟩, rfl⟩ := hb
  exact .prn hr hw

theorem execAdd_effect (h : execAdd a b s = .next t) : EffectOrFault s (.add a b) t := by
  refine effectOrFault_of_commit (fun hbody => ?_) h
  obtain ⟨ha, hb, wa, wb, rfl⟩ := aluInstr_eq_ok.1 hbody
  exact .add ha hb wa wb

theorem execMul_effect (h : execMul a b s = .next t) : EffectOrFault s (.mul a b) t := by
  refine effectOrFault_of_commit (fun hbody => ?_) h
  obtain ⟨ha, hb, wa, wb, rfl⟩ := aluInstr_eq_ok.1 hbody
  exact .mul ha hb wa wb

theorem execCmp_effect (h : execCmp a b s = .next t) : EffectOrFault s (.cmp a b) t := by
  refine effectOrFault_of_commit (fun hbody => ?_) h
  obtain ⟨ha, hb, wa, wb, rfl⟩ := aluInstr_eq_ok.1 hbody
  exact .cmp ha hb wa wb

theorem execPush_effect (h : execPush r s = .next t) : EffectOrFault s (.push r) t := by
  refine effectOrFault_of_commit (fun hb => ?_) h
  simp only [except_bind_eq_ok, regField_eq_ok, decrementSp_eq_ok, readReg_eq_ok, storeAtSp_eq_ok,
    Except.ok.injEq] at hb
  obtain ⟨_, ⟨hr, rfl⟩, _, ⟨hsp, hne, rfl⟩, _, ⟨hw, rfl⟩, _, ⟨_, rfl⟩, rfl⟩ := hb
  exact .push hr hsp hne hw

theorem execPop_effect (h : execPop r s = .next t) : EffectOrFault s (.pop r) t := by
  refine effectOrFault_of_commit (fun hb => ?_) h
  simp only [except_bind_eq_ok, regField_eq_ok, loadAtSp_eq_ok, incrementSp_eq_ok, Except.ok.injEq] at hb
  obtain ⟨_, ⟨hr, rfl⟩, _, ⟨hsp, rfl⟩, _, ⟨_, hne, rfl⟩, rfl⟩ := hb
  exact .pop hr hsp hne

theorem execCall_effect (h : execCall r s = .next t) : EffectOrFault s (.call r) t := by
  refine effectOrFault_of_commit (fun hb => ?_) h
  simp only [except_bind_eq_ok, regField_eq_ok, decrementSp_eq_ok, returnAddress_eq_ok, storeAtSp_eq_ok,
    jumpToReg_eq_ok] at hb
  obtain ⟨_, ⟨hr, rfl⟩, _, ⟨hsp, hne, rfl⟩, _, ⟨hra, rfl⟩, _, ⟨_, rfl⟩, hw, rfl⟩ := hb
  exact .call hr hsp hne hra hw

theorem execRet_effect (h : execRet s = .next t) : EffectOrFault s .ret t := by
  refine effectOrFault_of_commit (fun hb => ?_) h
  simp only [except_bind_eq_ok, loadAtSp_eq_ok, incrementSp_eq_ok, Except.ok.injEq] at hb
  obtain ⟨_, ⟨hsp, rfl⟩, _, ⟨_, hne, rfl⟩, rfl⟩ := hb
  exact .ret hsp hne

theorem execJmp_effect (h : execJmp r s = .next t) : EffectOrFault s (.jmp r) t := by
  refine effectOrFault_of_commit (fun hb => ?_) h
  simp only [except_bind_eq_ok, regField_eq_ok, jumpToReg_eq_ok] at hb
  obtain ⟨_, ⟨hr, rfl⟩, hw, rfl⟩ := hb
  exact .jmp hr hw

theorem execJeq_effect (h : execJeq r s = .next t) : EffectOrFault s (.jeq r) t := by
  refine effectOrFault_of_commit (fun hb => ?_) h
  obtain ⟨hr, ⟨hflag, hw, rfl⟩ | ⟨hflag, rfl⟩⟩ := condJump_eq_ok hb
  · exact .jeqTaken hr hflag hw
  · exact .jeqNotTaken hr hflag

theorem execJne_effect (h : execJne r s = .next t) : EffectOrFault s (.jne r) t := by
  refine effectOrFault_of_commit (fun hb => ?_) h
  obtain ⟨hr, ⟨hflag, hw, rfl⟩ | ⟨hflag, rfl⟩⟩ := condJump_eq_ok hb
  · exact .jneTaken hr hflag hw
  · exact .jneNotTaken hr hflag

/-- The inversion of `exec`: whatever the instruction, the next state is its effect or a fault taken in `s`. -/
theorem exec_effect {i : Instr} (h : exec i s = .next t) : EffectOrFault s i t := by
  cases i with
  | hlt => exact execHlt_effect h
  | ldi r imm => exact execLdi_effect h
  | prn r => exact execPrn_effect h
  | add a b => exact execAdd_effect h
  | mul a b => exact execMul_effect h
  | cmp a b => exact execCmp_effect h
  | push r => exact execPush_effect h
  | pop r => exact execPop_effect h
  | call r => exact execCall_effect h
  | ret => exact execRet_effect h
  | jmp r => exact execJmp_effect h
  | jeq r => exact execJeq_effect h
  | jne r => exact execJne_effect h

/-- A completed instruction had its effect: a fault would have left the status Faulted. -/
theorem Completes.effect {i : Instr} (h : Completes i s t) : Effect s i t := by
  obtain ⟨hexec, hstatus⟩ := h
  obtain heffect | ⟨c, rfl⟩ := exec_effect hexec
  · exact heffect
  · exact absurd (takeFault_status c s) hstatus

end Sys2Proof.Machine
end

section
/-! What an effect leaves of the program counter, the output trace and the comparison flag (10_state.md R26, R28,
R31), and the rules about them. -/

namespace Sys2Proof.Machine

theorem Effect.pc_of_not_transfer {s t : State} {i : Instr} (h : Effect s i t) (hi : controlTransfer i = false) :
    t.pc = s.pc + BitVec.ofNat 9 i.opcode.length := by
  cases h with
  | call | ret | jmp | jeqTaken | jeqNotTaken | jneTaken | jneNotTaken => cases hi
  | hlt | ldi | prn | add | mul | cmp | push | pop => rfl

/-- From an address that exists the 9-bit sum cannot wrap: it is at most 258 (R8, R50). -/
theorem advance_toNat_exact (pc : PcWord) (o : Opcode) (hpc : pc.toNat ≤ 255) :
    (pc + BitVec.ofNat 9 o.length).toNat = pc.toNat + o.length := by
  have hlen := o.length_cases
  simp only [BitVec.toNat_add, BitVec.toNat_ofNat]
  omega

/-- Settles O37: the effect of every instruction that is no control transfer advances by its length. -/
theorem pcAdvancesByLength : Obligations.PcAdvancesByLength := by
  unfold Obligations.PcAdvancesByLength
  constructor
  · intro i s t hi h
    exact h.effect.pc_of_not_transfer hi
  · intro i s t hi h hpc
    rw [h.effect.pc_of_not_transfer hi]
    exact advance_toNat_exact s.pc i.opcode hpc

/-- PRN appends its register's value; every other effect leaves the trace (R17, R31). -/
theorem Effect.out_cases {s t : State} {i : Instr} (h : Effect s i t) :
    t.out = s.out ∨ ∃ (r : Byte) (_ : r.toNat < 8), i = .prn r ∧ t.out = s.out ++ [s.regs[r.toNat]] := by
  cases h with
  | prn hr _ => exact .inr ⟨_, hr, rfl, rfl⟩
  | hlt | ldi | add | mul | cmp | push | pop | call | ret | jmp | jeqTaken | jeqNotTaken | jneTaken | jneNotTaken =>
    exact .inl rfl

/-- Settles O34: of the effects only PRN's touches the trace, and a fault leaves it. -/
theorem outputTraceRule : Obligations.OutputTraceRule := by
  unfold Obligations.OutputTraceRule
  refine ⟨rfl, ?_, ?_⟩
  · intro i s t h hne
    obtain heffect | ⟨c, rfl⟩ := exec_effect h
    · exact heffect.out_cases.resolve_left hne
    · exact absurd (takeFault_out c s) hne
  · intro r s t hr h
    cases h.effect with
    | prn => rfl

/-- CMP sets the flag by the equality of its registers; every other effect leaves it (R28, R78). -/
theorem Effect.eq_cases {s t : State} {i : Instr} (h : Effect s i t) :
    t.eq = s.eq ∨ ∃ (a b : Byte) (_ : a.toNat < 8) (_ : b.toNat < 8), i = .cmp a b ∧
      t.eq = compareFlagOf (s.regs[a.toNat] == s.regs[b.toNat]) := by
  cases h with
  | cmp ha hb => exact .inr ⟨_, _, ha, hb, rfl, rfl⟩
  | hlt | ldi | prn | add | mul | push | pop | call | ret | jmp | jeqTaken | jeqNotTaken | jneTaken | jneNotTaken =>
    exact .inl rfl

/-- A next state has a new flag only as a completed CMP sets it; a fault leaves the flag. -/
theorem exec_eq_cases {s t : State} {i : Instr} (h : exec i s = .next t) :
    t.eq = s.eq ∨ ∃ (a b : Byte) (_ : a.toNat < 8) (_ : b.toNat < 8), i = .cmp a b ∧
      t.eq = compareFlagOf (s.regs[a.toNat] == s.regs[b.toNat]) := by
  obtain heffect | ⟨c, rfl⟩ := exec_effect h
  · exact heffect.eq_cases
  · exact .inl (takeFault_eq c s)

theorem compareFlagOf_ne_unset (equal : Bool) : compareFlagOf equal ≠ .unset := by
  cases equal <;> decide

end Sys2Proof.Machine
end

section
/-! Two runs from states that differ only in the comparison flag: every operation but the test of a conditional jump
answers the same value or the same fault, so the flag has no other reader (10_state.md R28). -/

namespace Sys2Proof.Machine

/-- The results of two runs: the same fault, or states that differ at most in the flag. -/
inductive AlikeButFlag : Except FaultCause State → Except FaultCause State → Prop where
  | ok {t' t : State} (f : CompareFlag) (h : t' = t.setFlag f) : AlikeButFlag (.ok t') (.ok t)
  | error (c : FaultCause) : AlikeButFlag (.error c) (.error c)

/-- A statement both runs answer alike, then statements that keep the runs alike. -/
theorem AlikeButFlag.bind_value {α : Type} {k' k : α → Except FaultCause State} (x : Except FaultCause α)
    (hk : ∀ a, AlikeButFlag (k' a) (k a)) : AlikeButFlag (x >>= k') (x >>= k) := by
  cases x with
  | ok a => exact hk a
  | error c => exact .error c

/-- A statement that changes the state and keeps the runs alike, then more of the kind. -/
theorem AlikeButFlag.bind_state {m' m : Except FaultCause State} {k' k : State → Except FaultCause State}
    (hm : AlikeButFlag m' m) (hk : ∀ t f, AlikeButFlag (k' (t.setFlag f)) (k t)) :
    AlikeButFlag (m' >>= k') (m >>= k) := by
  cases hm with
  | ok f ht => exact ht ▸ hk _ f
  | error c => exact .error c

section

variable (s : State) (f : CompareFlag)

theorem decrementSp_setFlag : AlikeButFlag (decrementSp (s.setFlag f)) (decrementSp s) := by
  refine .bind_value (readReg s Config.spIndex) fun sp => ?_
  dsimp only
  split
  · exact .error _
  · exact .ok f rfl

theorem incrementSp_setFlag : AlikeButFlag (incrementSp (s.setFlag f)) (incrementSp s) := by
  refine .bind_value (readReg s Config.spIndex) fun sp => ?_
  dsimp only
  split
  · exact .error _
  · exact .ok f rfl

/-- The store lands in both runs: SP is a byte. -/
theorem storeAtSp_setFlag (v : Byte) : AlikeButFlag (storeAtSp (s.setFlag f) v) (storeAtSp s v) := by
  refine .bind_value (readReg s Config.spIndex) fun sp => ?_
  simp only [memWrite_inside sp.isLt]
  exact .ok f rfl

theorem jumpToReg_setFlag (r : RegId) : AlikeButFlag (jumpToReg (s.setFlag f) r) (jumpToReg s r) :=
  .bind_value (readReg s r) fun _ => .ok f rfl

/-- CMP writes the same flag in both runs; ADD and MUL leave each run its own. -/
theorem aluInstr_setFlag (op : AluOp) (a b : Byte) :
    AlikeButFlag (aluInstr op a b (s.setFlag f)) (aluInstr op a b s) := by
  refine .bind_value (regField a) fun i => .bind_value (regField b) fun j =>
    .bind_value (readReg s i) fun x => .bind_value (readReg s j) fun y => ?_
  cases op with
  | add | mul => exact .ok f rfl
  | cmp => exact .ok (compareFlagOf (x == y)) rfl

end

/-- Runs whose bodies are alike end in next states that differ at most in the flag. -/
theorem commit_setFlag {s t : State} {f : CompareFlag} {body' body : Except FaultCause State}
    (h : commit s body = .next t) (hbody : AlikeButFlag body' body) :
    ∃ t', commit (s.setFlag f) body' = .next t' ∧ t'.setFlag t.eq = t := by
  cases hbody with
  | ok g hu => cases h; exact ⟨_, rfl, hu ▸ rfl⟩
  | error c => cases h; exact ⟨_, rfl, rfl⟩

/-- The flag decides nothing outside JEQ and JNE (R28). -/
theorem exec_setFlag {s t : State} {i : Instr} (f : CompareFlag) (hi : ∀ r, i ≠ .jeq r ∧ i ≠ .jne r)
    (h : exec i s = .next t) : ∃ t', exec i (s.setFlag f) = .next t' ∧ t'.setFlag t.eq = t := by
  cases i with
  | hlt => cases h; exact ⟨_, rfl, rfl⟩
  | ldi r imm => exact commit_setFlag h (.bind_value (regField r) fun _ => .ok f rfl)
  | prn r => exact commit_setFlag h (.bind_value (regField r) fun r => .bind_value (readReg s r) fun _ => .ok f rfl)
  | add a b => exact commit_setFlag h (aluInstr_setFlag s f .add a b)
  | mul a b => exact commit_setFlag h (aluInstr_setFlag s f .mul a b)
  | cmp a b => exact commit_setFlag h (aluInstr_setFlag s f .cmp a b)
  | push r =>
    exact commit_setFlag h (.bind_value (regField r) fun r => .bind_state (decrementSp_setFlag s f) fun s1 f1 =>
      .bind_value (readReg s1 r) fun v => .bind_state (storeAtSp_setFlag s1 f1 v) fun _ f2 => .ok f2 rfl)
  | pop r =>
    exact commit_setFlag h (.bind_value (regField r) fun r => .bind_value (loadAtSp s) fun v =>
      .bind_state (incrementSp_setFlag (s.writeReg r v) f) fun _ f1 => .ok f1 rfl)
  | call r =>
    exact commit_setFlag h (.bind_value (regField r) fun r => .bind_state (decrementSp_setFlag s f) fun s1 f1 =>
      .bind_value (returnAddress s1) fun ra => .bind_state (storeAtSp_setFlag s1 f1 ra) fun s2 f2 =>
        jumpToReg_setFlag s2 f2 r)
  | ret =>
    exact commit_setFlag h (.bind_value (loadAtSp s) fun _ =>
      .bind_state (incrementSp_setFlag s f) fun _ f1 => .ok f1 rfl)
  | jmp r => exact commit_setFlag h (.bind_value (regField r) fun r => jumpToReg_setFlag s f r)
  | jeq r => exact absurd rfl (hi r).1
  | jne r => exact absurd rfl (hi r).2

/-- Settles O33: the writers by the effects of the instructions, the readers by comparing two runs. -/
theorem comparisonFlagRule : Obligations.ComparisonFlagRule := by
  unfold Obligations.ComparisonFlagRule
  refine ⟨rfl, fun f => by cases f <;> simp, ?onlyCmpWrites, ?cmpWrites, ?neverUnsetAgain, ?onlyJumpsRead⟩
  case onlyCmpWrites =>
    intro i s t h hne
    obtain hsame | ⟨a, b, _, _, hi, _⟩ := exec_eq_cases h
    · exact absurd hsame hne
    · exact ⟨a, b, hi⟩
  case cmpWrites =>
    intro a b s t ha hb h
    cases h.effect with
    | cmp => simp [compareFlagOf]
  case neverUnsetAgain =>
    intro i s t h hunset
    obtain hsame | ⟨a, b, _, _, _, hset⟩ := exec_eq_cases h
    · exact hsame ▸ hunset
    · exact absurd (hset ▸ hunset) (compareFlagOf_ne_unset _)
  case onlyJumpsRead =>
    intro i s t f hi h
    exact exec_setFlag f hi h

end Sys2Proof.Machine
end

section
/-! What an operation or an instruction can raise, said once: the causes of a fault met in the execution of an
instruction, and of one met in its fetch (40_fetch_decode_dispatch.md R61 to R64; 60_exceptions.md R92 to R97). -/

namespace Sys2Proof.Machine

/-- A computation ends in an answer of which `Q` holds, or raises a cause of which `E` holds. -/
inductive AnswersOrRaises {α : Type} (E : FaultCause → Prop) (Q : α → Prop) : Except FaultCause α → Prop where
  | answers {a : α} (h : Q a) : AnswersOrRaises E Q (.ok a)
  | raises {c : FaultCause} (h : E c) : AnswersOrRaises E Q (.error c)

theorem AnswersOrRaises.bind {α β : Type} {E : FaultCause → Prop} {Q : α → Prop} {R : β → Prop}
    {x : Except FaultCause α} {k : α → Except FaultCause β} (hx : AnswersOrRaises E Q x)
    (hk : ∀ a, Q a → AnswersOrRaises E R (k a)) : AnswersOrRaises E R (x >>= k) := by
  cases hx with
  | answers h => exact hk _ h
  | raises h => exact .raises h

/-- The causes an instruction can raise once it has been fetched. Of the addresses outside memory only -1 is among them,
from a push onto a full stack: every other address an instruction uses is a byte (R79, R82, R87). -/
inductive RaisedInExec : FaultCause → Prop where
  | badField (f : Byte) : RaisedInExec (.outOfBounds .reg f.toNat)
  | stackFull : RaisedInExec (.outOfBounds .mem (-1))
  | stackEmpty : RaisedInExec (.outOfBounds .spovf 256)
  | returnAddress (ra : Int) : RaisedInExec (.outOfBounds .retaddr ra)
  | unwritten (i : RegId) : RaisedInExec (.uninitializedRegister i)
  | unsetFlag : RaisedInExec .unsetComparisonFlag

/-! ### The operations -/

/-- A part of an instruction's body that answers a value. -/
abbrev ValuePart {α : Type} : Except FaultCause α → Prop := AnswersOrRaises RaisedInExec fun _ => True

/-- A part of an instruction's body that answers a state, one that is not Faulted. -/
abbrev StatePart : Except FaultCause State → Prop := AnswersOrRaises RaisedInExec fun t => t.status ≠ .faulted

theorem regField_part (f : Byte) : ValuePart (regField f) := by
  by_cases h : f.toNat < 8
  · rw [regField_inside h]
    exact .answers trivial
  · rw [regField_outside (Nat.le_of_not_lt h)]
    exact .raises (.badField f)

theorem readReg_part (s : State) (i : RegId) : ValuePart (readReg s i) := by
  cases h : s.written[i] with
  | true => rw [readReg_written h]; exact .answers trivial
  | false => rw [readReg_unwritten h]; exact .raises (.unwritten i)

theorem jumpTaken_part (want : Bool) (f : CompareFlag) : ValuePart (jumpTaken want f) := by
  cases f with
  | unset => exact .raises .unsetFlag
  | isTrue | isFalse => exact .answers trivial

theorem returnAddress_part (s : State) : ValuePart (returnAddress s) := by
  by_cases h : s.pc.toNat + 2 ≤ 255
  · rw [returnAddress_fits h]
    exact .answers trivial
  · rw [returnAddress_overflow (Nat.lt_of_not_le h)]
    exact .raises (.returnAddress _)

theorem loadAtSp_part (s : State) : ValuePart (loadAtSp s) := by
  refine (readReg_part s Config.spIndex).bind fun sp _ => ?_
  rw [memRead_inside sp.isLt]
  exact .answers trivial

section

variable {s : State} (hs : s.status ≠ .faulted)
include hs

theorem storeAtSp_part (v : Byte) : StatePart (storeAtSp s v) := by
  refine (readReg_part s Config.spIndex).bind fun sp _ => ?_
  rw [memWrite_inside sp.isLt]
  exact .answers hs

theorem decrementSp_part : StatePart (decrementSp s) := by
  cases h : s.written[7] with
  | false => rw [decrementSp, readSp_unwritten h]; exact .raises (.unwritten Config.spIndex)
  | true =>
    rw [decrementSp_spec h]
    split
    · exact .raises .stackFull
    · exact .answers hs

theorem incrementSp_part : StatePart (incrementSp s) := by
  cases h : s.written[7] with
  | false => rw [incrementSp, readSp_unwritten h]; exact .raises (.unwritten Config.spIndex)
  | true =>
    rw [incrementSp_spec h]
    split
    · exact .raises .stackEmpty
    · exact .answers hs

theorem jumpToReg_part (r : RegId) : StatePart (jumpToReg s r) :=
  (readReg_part s r).bind fun _ _ => .answers hs

theorem aluInstr_part (op : AluOp) (a b : Byte) : StatePart (aluInstr op a b s) := by
  refine (regField_part a).bind fun i _ => (regField_part b).bind fun j _ =>
    (readReg_part s i).bind fun x _ => (readReg_part s j).bind fun y _ => .answers ?_
  cases op with
  | add | mul | cmp => exact hs

theorem condJump_part (want : Bool) (r : Byte) : StatePart (condJump want r s) := by
  refine (regField_part r).bind fun i _ => (jumpTaken_part want s.eq).bind fun taken _ => ?_
  cases taken with
  | true => exact jumpToReg_part hs i
  | false => exact .answers hs

/-- The body of every instruction, one part after another (R21, R65). -/
theorem exec_commits_part (i : Instr) : ∃ body, exec i s = commit s body ∧ StatePart body := by
  cases i with
  | hlt => exact ⟨_, rfl, .answers RunStatus.noConfusion⟩
  | ldi r imm => exact ⟨_, rfl, (regField_part r).bind fun _ _ => .answers hs⟩
  | prn r => exact ⟨_, rfl, (regField_part r).bind fun i _ => (readReg_part s i).bind fun _ _ => .answers hs⟩
  | add a b => exact ⟨_, rfl, aluInstr_part hs .add a b⟩
  | mul a b => exact ⟨_, rfl, aluInstr_part hs .mul a b⟩
  | cmp a b => exact ⟨_, rfl, aluInstr_part hs .cmp a b⟩
  | push r =>
    exact ⟨_, rfl, (regField_part r).bind fun i _ => (decrementSp_part hs).bind fun s1 h1 =>
      (readReg_part s1 i).bind fun v _ => (storeAtSp_part h1 v).bind fun _ h2 => .answers h2⟩
  | pop r =>
    exact ⟨_, rfl, (regField_part r).bind fun i _ => (loadAtSp_part s).bind fun v _ =>
      (incrementSp_part (s := s.writeReg i v) hs).bind fun _ h1 => .answers h1⟩
  | call r =>
    exact ⟨_, rfl, (regField_part r).bind fun i _ => (decrementSp_part hs).bind fun s1 h1 =>
      (returnAddress_part s1).bind fun ra _ => (storeAtSp_part h1 ra).bind fun _ h2 => jumpToReg_part h2 i⟩
  | ret => exact ⟨_, rfl, (loadAtSp_part s).bind fun _ _ => (incrementSp_part hs).bind fun _ h1 => .answers h1⟩
  | jmp r => exact ⟨_, rfl, (regField_part r).bind fun i _ => jumpToReg_part hs i⟩
  | jeq r => exact ⟨_, rfl, condJump_part hs true r⟩
  | jne r => exact ⟨_, rfl, condJump_part hs false r⟩

/-- An instruction runs to its end, or takes a fault in `s` for one of the causes an instruction can raise. -/
theorem exec_completes_or_raises {i : Instr} {t : State} (h : exec i s = .next t) :
    t.status ≠ .faulted ∨ ∃ c, RaisedInExec c ∧ t = takeFault c s := by
  obtain ⟨body, hcommit, hbody⟩ := exec_commits_part hs i
  rw [hcommit] at h
  cases hbody with
  | answers ht => cases h; exact .inl ht
  | raises hc => cases h; exact .inr ⟨_, hc, rfl⟩

end

/-! ### The fetch -/

/-- The causes the fetch unit can raise with the program counter at `pc`: the address of the opcode byte, or of operand
byte `n` behind an opcode byte that is there, does not exist (R61, R63), or the opcode has no row (R62). -/
inductive RaisedInFetch (pc : PcWord) : FaultCause → Prop where
  | opcodeAddress (hpc : 256 ≤ pc.toNat) : RaisedInFetch pc (.outOfBounds .mem pc.toNat)
  | operandAddress (n : Nat) (hpc : pc.toNat < 256) (hn : n ≤ 2) (hout : 256 ≤ pc.toNat + n) :
      RaisedInFetch pc (.outOfBounds .mem (pc.toNat + n))
  | unknownInstruction (op : Byte) : RaisedInFetch pc (.unknownInstruction op)

theorem fetchOperand_raises {s : State} (o : Opcode) {n : Nat} (hpc : s.pc.toNat < 256) (hn : n ≤ 2) :
    AnswersOrRaises (RaisedInFetch s.pc) (fun _ => True) (fetchOperand s o n) := by
  by_cases hlen : n < o.length
  · by_cases hin : s.pc.toNat + n < 256
    · rw [fetchOperand_inside hlen hin]
      exact .answers trivial
    · have hout := Nat.le_of_not_lt hin
      rw [fetchOperand_outside hlen hout]
      exact .raises (.operandAddress n hpc hn hout)
  · rw [fetchOperand_absent hlen]
    exact .answers trivial

theorem fetch_raises (s : State) : AnswersOrRaises (RaisedInFetch s.pc) (fun _ => True) (fetch s) := by
  by_cases hpc : s.pc.toNat < 256
  · by_cases hrow : ∃ o : Opcode, s.byteAt s.pc.toNat = o.toByte
    · obtain ⟨o, ho⟩ := hrow
      rw [fetch_of_row hpc ho]
      exact (fetchOperand_raises o hpc (by decide)).bind fun _ _ =>
        (fetchOperand_raises o hpc (by decide)).bind fun _ _ => .answers trivial
    · rw [fetch_of_no_row hpc fun o ho => hrow ⟨o, ho.symm⟩]
      exact .raises (.unknownInstruction _)
  · have hout := Nat.le_of_not_lt hpc
    rw [fetch_pc_outside hout]
    exact .raises (.opcodeAddress hout)

/-! ### The step -/

/-- The fault a Running step takes is raised in its fetch or in its instruction (R60). -/
theorem step_completes_or_raises {s t : State} (hs : s.status = .running) (h : step s = .next t) :
    t.status ≠ .faulted ∨ ∃ c, (RaisedInFetch s.pc c ∨ RaisedInExec c) ∧ t = takeFault c s := by
  have hfetch := fetch_raises s
  cases hf : fetch s with
  | ok i =>
    rw [step_of_fetch_ok hs hf] at h
    obtain hok | ⟨c, hc, ht⟩ := exec_completes_or_raises (by simp [hs]) h
    · exact .inl hok
    · exact .inr ⟨c, .inr hc, ht⟩
  | error c =>
    rw [step_of_fetch_error hs hf] at h
    rw [hf] at hfetch
    cases hfetch with
    | raises hc => cases h; exact .inr ⟨c, .inl hc, rfl⟩

/-- Only an out-of-range access records an access (R93 to R96). -/
theorem FaultCause.eq_of_info_access {c : FaultCause} {place : AccessKind} {v : Int} (h : c.info = .access place v) :
    c = .outOfBounds place v := by
  cases c with
  | outOfBounds => cases h; rfl
  | unknownInstruction | unsupportedALUOperation | uninitializedRegister | unsetComparisonFlag => cases h

/-- A fault taken for an out-of-range access has no other cause: the record tells (R98). -/
theorem eq_of_takeFault_outOfBounds {c : FaultCause} {place : AccessKind} {v : Int} {s : State}
    (h : takeFault (.outOfBounds place v) s = takeFault c s) : c = .outOfBounds place v := by
  have hrecord := Option.some.inj (congrArg State.fault h)
  exact FaultCause.eq_of_info_access (congrArg FaultRecord.info hrecord).symm

end Sys2Proof.Machine
end

section
/-! Memory is accessed at the very address, and the addresses a step can fault with (20_memory.md R39). -/

namespace Sys2Proof.Machine

theorem RaisedInFetch.mem_address {pc : PcWord} {v : Int} (h : RaisedInFetch pc (.outOfBounds .mem v))
    (hpc : pc.toNat ≤ 256) : v = 256 ∨ v = 257 := by
  cases h with
  | opcodeAddress hout => omega
  | operandAddress n hin hn hout => omega

theorem RaisedInExec.mem_address {v : Int} (h : RaisedInExec (.outOfBounds .mem v)) : v = -1 := by
  cases h with
  | stackFull => rfl

/-- Settles O36: reads and writes by their own laws, and a step by what its fetch and its instruction can raise. -/
theorem memoryAccessNeverWraps : Obligations.MemoryAccessNeverWraps := by
  unfold Obligations.MemoryAccessNeverWraps
  refine ⟨?readInside, fun s a => memRead_outside, ?writeInside, fun s a v => memWrite_outside, ?stepFault⟩
  case readInside =>
    intro s a h0 h256
    lift a to ℕ using h0
    exact memRead_inside (by omega)
  case writeInside =>
    intro s a v h0 h256
    lift a to ℕ using h0
    refine ⟨s.setByte a v, memWrite_inside (by omega), rfl, fun b => ?_⟩
    simp only [byteAt_setByte, Int.toNat_natCast, eq_comm]
  case stepFault =>
    intro s v hs hpc h
    obtain hok | ⟨c, hc, ht⟩ := step_completes_or_raises hs h
    · exact absurd (takeFault_status _ s) hok
    · obtain rfl := eq_of_takeFault_outOfBounds ht
      obtain hfetch | hexec := hc
      · exact (hfetch.mem_address hpc).imp_right .inl
      · exact .inr (.inr hexec.mem_address)

end Sys2Proof.Machine
end

section
/-! A register field names a register by its whole byte (30_encoding.md R52). -/

namespace Sys2Proof.Machine

/-- Settles O15: a field that names a register has that register's number for its byte, and a byte that is a
register's number is below 8, so it names that register. -/
theorem registerFieldIsWholeByte : Obligations.RegisterFieldIsWholeByte := by
  unfold Obligations.RegisterFieldIsWholeByte
  refine fun f => ⟨fun i => ⟨fun hok => ?named, fun hnum => ?numbered⟩, regField_outside⟩
  case named =>
    obtain ⟨_, rfl⟩ := regField_eq_ok.mp hok
    rfl
  case numbered =>
    have hlt : f.toNat < 8 := hnum ▸ i.isLt
    exact regField_eq_ok.mpr ⟨hlt, Fin.ext hnum.symm⟩

end Sys2Proof.Machine
end

section
/-! Two runs from states that differ at most in registers that hold no value: every statement of an instruction answers
the same value or the same fault in both, so what stands in such a register is never seen (10_state.md R25,
60_exceptions.md R96). -/

namespace Sys2Proof.Machine

/-! ### What two such states give alike, and the updates that keep them so -/

section

variable {s s' : State} (h : AgreeOnWritten s s')
include h

/-- A register is looked at only where its written bit is set, and there the states agree. -/
theorem AgreeOnWritten.readReg_eq (i : RegId) : readReg s' i = readReg s i := by
  have hbit : s'.written[i] = s.written[i] := by rw [h.written]
  cases hw : s.written[i] with
  | true => rw [readReg_written hw, readReg_written (hbit.trans hw), h.regs i hw]
  | false => rw [readReg_unwritten hw, readReg_unwritten (hbit.trans hw)]

theorem AgreeOnWritten.memRead_eq (a : Int) : memRead s' a = memRead s a := by
  simp only [memRead, byteAt_def, h.mem]

theorem AgreeOnWritten.returnAddress_eq : returnAddress s' = returnAddress s := by
  simp only [returnAddress, h.pc]

theorem AgreeOnWritten.loadAtSp_eq : loadAtSp s' = loadAtSp s := by
  simp only [loadAtSp, h.readReg_eq, h.memRead_eq]

theorem AgreeOnWritten.fetchOperand_eq (o : Opcode) (n : Nat) : fetchOperand s' o n = fetchOperand s o n := by
  simp only [fetchOperand, h.memRead_eq, h.pc]

/-- The fetch unit looks at `pc` and memory alone (R60). -/
theorem AgreeOnWritten.fetch_eq : fetch s' = fetch s := by
  simp only [fetch, h.memRead_eq, h.fetchOperand_eq, h.pc]

/-- After a write the written register holds the same value in both states. -/
theorem AgreeOnWritten.writeReg (i : RegId) (v : Byte) : AgreeOnWritten (s.writeReg i v) (s'.writeReg i v) where
  written := by simp only [writeReg_written, h.written]
  regs := by
    intro j hj
    rw [writeReg_written_get] at hj
    rw [writeReg_regs_get, writeReg_regs_get]
    split
    · rfl
    · next hne => exact h.regs j (by rwa [if_neg hne] at hj)
  pc := h.pc
  eq := h.eq
  status := h.status
  out := h.out
  fault := h.fault
  mem := h.mem

theorem AgreeOnWritten.setPc (p : PcWord) : AgreeOnWritten (s.setPc p) (s'.setPc p) := { h with pc := rfl }

theorem AgreeOnWritten.advance (n : Nat) : AgreeOnWritten (s.advance n) (s'.advance n) :=
  { h with pc := by simp only [advance_pc, h.pc] }

theorem AgreeOnWritten.setFlag (f : CompareFlag) : AgreeOnWritten (s.setFlag f) (s'.setFlag f) := { h with eq := rfl }

theorem AgreeOnWritten.setStatus (st : RunStatus) : AgreeOnWritten (s.setStatus st) (s'.setStatus st) :=
  { h with status := rfl }

theorem AgreeOnWritten.emit (v : Byte) : AgreeOnWritten (s.emit v) (s'.emit v) :=
  { h with out := by simp only [emit_out, h.out] }

theorem AgreeOnWritten.setByte (a : Nat) (v : Byte) : AgreeOnWritten (s.setByte a v) (s'.setByte a v) :=
  { h with mem := by simp only [setByte_mem, h.mem] }

theorem AgreeOnWritten.takeFault (c : FaultCause) : AgreeOnWritten (takeFault c s) (takeFault c s') :=
  { h with status := rfl, fault := by simp only [takeFault_fault, h.pc] }

theorem AgreeOnWritten.aluWriteBack (i : RegId) (res : AluResult) :
    AgreeOnWritten (aluWriteBack s i res) (aluWriteBack s' i res) := by
  cases res with
  | byte v => exact h.writeReg i v
  | equality e => exact h.setFlag _

end

/-! ### The statements of an instruction, one after another -/

/-- The results of two runs: the same fault, or states that differ at most in registers that hold no value. -/
inductive AlikeOnWritten : Except FaultCause State → Except FaultCause State → Prop where
  | ok {t t' : State} (h : AgreeOnWritten t t') : AlikeOnWritten (.ok t) (.ok t')
  | error (c : FaultCause) : AlikeOnWritten (.error c) (.error c)

/-- A statement that answers the same value in both runs, then statements that keep the runs alike. -/
theorem AlikeOnWritten.bind_value {α : Type} {x x' : Except FaultCause α} {k k' : α → Except FaultCause State}
    (hx : x' = x) (hk : ∀ a, AlikeOnWritten (k a) (k' a)) : AlikeOnWritten (x >>= k) (x' >>= k') := by
  subst hx
  cases x' with
  | ok a => exact hk a
  | error c => exact .error c

/-- A statement that changes the state and keeps the runs alike, then more of the kind. -/
theorem AlikeOnWritten.bind_state {m m' : Except FaultCause State} {k k' : State → Except FaultCause State}
    (hm : AlikeOnWritten m m') (hk : ∀ t t', AgreeOnWritten t t' → AlikeOnWritten (k t) (k' t')) :
    AlikeOnWritten (m >>= k) (m' >>= k') := by
  cases hm with
  | ok ht => exact hk _ _ ht
  | error c => exact .error c

section

variable {s s' : State} (h : AgreeOnWritten s s')
include h

theorem AgreeOnWritten.decrementSp : AlikeOnWritten (decrementSp s) (decrementSp s') := by
  refine .bind_value (h.readReg_eq Config.spIndex) fun sp => ?_
  dsimp only
  split
  · exact .error _
  · exact .ok (h.writeReg Config.spIndex _)

theorem AgreeOnWritten.incrementSp : AlikeOnWritten (incrementSp s) (incrementSp s') := by
  refine .bind_value (h.readReg_eq Config.spIndex) fun sp => ?_
  dsimp only
  split
  · exact .error _
  · exact .ok (h.writeReg Config.spIndex _)

/-- The store lands in both runs: SP is a byte. -/
theorem AgreeOnWritten.storeAtSp (v : Byte) : AlikeOnWritten (storeAtSp s v) (storeAtSp s' v) := by
  refine .bind_value (h.readReg_eq Config.spIndex) fun sp => ?_
  simp only [memWrite_inside sp.isLt]
  exact .ok (h.setByte sp.toNat v)

theorem AgreeOnWritten.jumpToReg (r : RegId) : AlikeOnWritten (jumpToReg s r) (jumpToReg s' r) :=
  .bind_value (h.readReg_eq r) fun t => .ok (h.setPc (pcOfByte t))

theorem AgreeOnWritten.aluInstr (op : AluOp) (a b : Byte) :
    AlikeOnWritten (aluInstr op a b s) (aluInstr op a b s') :=
  .bind_value rfl fun i => .bind_value rfl fun j => .bind_value (h.readReg_eq i) fun x =>
    .bind_value (h.readReg_eq j) fun y => .ok ((h.aluWriteBack i (alu op x y)).advance 3)

theorem AgreeOnWritten.condJump (want : Bool) (r : Byte) :
    AlikeOnWritten (condJump want r s) (condJump want r s') := by
  refine .bind_value rfl fun i => .bind_value (by rw [h.eq]) fun taken => ?_
  cases taken with
  | true => exact h.jumpToReg i
  | false => exact .ok (h.advance 2)

/-! ### The instruction and the step -/

/-- Runs whose bodies are alike end in next states that are (R21). -/
theorem AgreeOnWritten.commit {t : State} {body body' : Except FaultCause State} (hbody : AlikeOnWritten body body')
    (ht : commit s body = .next t) : ∃ t', commit s' body' = .next t' ∧ AgreeOnWritten t t' := by
  cases hbody with
  | ok hu => cases ht; exact ⟨_, rfl, hu⟩
  | error c => cases ht; exact ⟨_, rfl, h.takeFault c⟩

theorem AgreeOnWritten.exec {i : Instr} {t : State} (ht : exec i s = .next t) :
    ∃ t', exec i s' = .next t' ∧ AgreeOnWritten t t' := by
  cases i with
  | hlt => exact h.commit (.ok ((h.setStatus .halted).advance 1)) ht
  | ldi r imm => exact h.commit (.bind_value rfl fun i => .ok ((h.writeReg i imm).advance 3)) ht
  | prn r =>
    exact h.commit (.bind_value rfl fun i => .bind_value (h.readReg_eq i) fun v => .ok ((h.emit v).advance 2)) ht
  | add a b => exact h.commit (h.aluInstr .add a b) ht
  | mul a b => exact h.commit (h.aluInstr .mul a b) ht
  | cmp a b => exact h.commit (h.aluInstr .cmp a b) ht
  | push r =>
    exact h.commit (.bind_value rfl fun i => .bind_state h.decrementSp fun _ _ h1 =>
      .bind_value (h1.readReg_eq i) fun v => .bind_state (h1.storeAtSp v) fun _ _ h2 => .ok (h2.advance 2)) ht
  | pop r =>
    exact h.commit (.bind_value rfl fun i => .bind_value h.loadAtSp_eq fun v =>
      .bind_state (h.writeReg i v).incrementSp fun _ _ h1 => .ok (h1.advance 2)) ht
  | call r =>
    exact h.commit (.bind_value rfl fun i => .bind_state h.decrementSp fun _ _ h1 =>
      .bind_value h1.returnAddress_eq fun ra => .bind_state (h1.storeAtSp ra) fun _ _ h2 => h2.jumpToReg i) ht
  | ret =>
    exact h.commit (.bind_value h.loadAtSp_eq fun t =>
      .bind_state h.incrementSp fun _ _ h1 => .ok (h1.setPc (pcOfByte t))) ht
  | jmp r => exact h.commit (.bind_value rfl fun i => h.jumpToReg i) ht
  | jeq r => exact h.commit (h.condJump true r) ht
  | jne r => exact h.commit (h.condJump false r) ht

end

/-- Settles O44: both states fetch the same instruction or the same fault, and the instruction keeps them alike. -/
theorem unwrittenRegistersAreUnobservable : Obligations.UnwrittenRegistersAreUnobservable := by
  unfold Obligations.UnwrittenRegistersAreUnobservable
  intro s s' t h ht
  by_cases hs : s.status = .running
  · have hs' : s'.status = .running := h.status.trans hs
    cases hf : fetch s with
    | ok i =>
      rw [step_of_fetch_ok hs hf] at ht
      rw [step_of_fetch_ok hs' (h.fetch_eq.trans hf)]
      exact h.exec ht
    | error c =>
      rw [step_of_fetch_error hs hf] at ht
      cases ht
      exact ⟨_, step_of_fetch_error hs' (h.fetch_eq.trans hf), h.takeFault c⟩
  · rw [step_not_running hs] at ht
    cases ht
    exact ⟨s', step_not_running (h.status ▸ hs), h⟩

end Sys2Proof.Machine
end

section
/-! A fetch that raises: the step takes the fault and does nothing else (40_fetch_decode_dispatch.md R61, R62). -/

namespace Sys2Proof.Machine

/-- Settles O12: the opcode fetch raises with the program counter itself as the address. -/
theorem fetchAt256Faults : Obligations.FetchAt256Faults := by
  unfold Obligations.FetchAt256Faults
  intro s hs hpc
  rw [step_of_fetch_error hs (fetch_pc_outside hpc.ge), hpc]
  rfl

/-- Settles O13: the map finds each row by its byte, and a byte of no row ends the fetch before any operand. -/
theorem unknownOpcodeFaults : Obligations.UnknownOpcodeFaults := by
  unfold Obligations.UnknownOpcodeFaults
  exact ⟨Opcode.ofByte_toByte, fun _ hs hpc hrow => step_of_fetch_error hs (fetch_of_no_row hpc hrow)⟩

end Sys2Proof.Machine
end

section
/-! The run state after a step: a step answers a next state, and only HLT halts (10_state.md R30,
40_fetch_decode_dispatch.md R66). -/

namespace Sys2Proof

theorem Opcode.assemble_opcode (o : Opcode) (f1 f2 : Byte) : (o.assemble f1 f2).opcode = o := by cases o <;> rfl

namespace Machine

/-- Halting is HLT's effect alone; every other effect leaves the run state (R30, R69). -/
theorem Effect.status_cases {s t : State} {i : Instr} (h : Effect s i t) :
    t.status = s.status ∨ (i = .hlt ∧ t.status = .halted) := by
  cases h with
  | hlt => exact .inr ⟨rfl, rfl⟩
  | ldi | prn | add | mul | cmp | push | pop | call | ret | jmp | jeqTaken | jeqNotTaken | jneTaken | jneNotTaken =>
    exact .inl rfl

theorem exec_answers (i : Instr) (s : State) : ∃ t, exec i s = .next t := by
  obtain ⟨body, hbody⟩ := exec_is_commit i s
  rw [hbody]
  cases body with
  | ok t => exact ⟨t, rfl⟩
  | error c => exact ⟨takeFault c s, rfl⟩

/-- A Running step always answers a next state (R66). -/
theorem step_answers {s : State} (hs : s.status = .running) : ∃ t, step s = .next t := by
  cases hf : fetch s with
  | ok i => rw [step_of_fetch_ok hs hf]; exact exec_answers i s
  | error c => exact ⟨_, step_of_fetch_error hs hf⟩

/-- The inversion of a Running step: the effect of the instruction fetched, or a fault taken in `s` (R21, R60). -/
theorem step_effect {s t : State} (hs : s.status = .running) (h : step s = .next t) :
    (∃ i, fetch s = .ok i ∧ Effect s i t) ∨ ∃ c, t = takeFault c s := by
  cases hf : fetch s with
  | ok i =>
    rw [step_of_fetch_ok hs hf] at h
    exact (exec_effect h).imp_left fun heffect => ⟨i, rfl, heffect⟩
  | error c =>
    rw [step_of_fetch_error hs hf] at h
    cases h
    exact .inr ⟨c, rfl⟩

/-- A fetch that ends normally found the instruction's own opcode byte at an address that exists (R61, R62). -/
theorem fetch_ok_opcode {s : State} {i : Instr} (h : fetch s = .ok i) :
    s.pc.toNat < 256 ∧ s.byteAt s.pc.toNat = i.opcode.toByte := by
  by_cases hpc : s.pc.toNat < 256
  · by_cases hrow : ∃ o : Opcode, s.byteAt s.pc.toNat = o.toByte
    · obtain ⟨o, ho⟩ := hrow
      simp only [fetch_of_row hpc ho, except_bind_eq_ok, Except.ok.injEq] at h
      obtain ⟨f1, _, f2, _, rfl⟩ := h
      exact ⟨hpc, by rw [ho, Opcode.assemble_opcode]⟩
    · rw [fetch_of_no_row hpc fun o ho => hrow ⟨o, ho.symm⟩] at h
      cases h
  · rw [fetch_pc_outside (Nat.le_of_not_lt hpc)] at h
    cases h

/-- HLT has no operand: its opcode byte alone makes the fetch unit answer it. -/
theorem fetch_hlt_iff (s : State) : fetch s = .ok .hlt ↔ s.pc.toNat < 256 ∧ s.byteAt s.pc.toNat = 0x01 := by
  refine ⟨fetch_ok_opcode, fun ⟨hpc, hbyte⟩ => ?_⟩
  rw [fetch_of_row (o := .hlt) hpc hbyte]
  rfl

theorem step_halts_iff {s t : State} (hs : s.status = .running) (h : step s = .next t) :
    t.status = .halted ↔ fetch s = .ok .hlt := by
  constructor
  · intro ht
    obtain ⟨i, hi, heffect⟩ | ⟨c, rfl⟩ := step_effect hs h
    · obtain hsame | ⟨rfl, _⟩ := heffect.status_cases
      · simp [hsame, hs] at ht
      · exact hi
    · simp at ht
  · intro hf
    rw [step_of_fetch_ok hs hf] at h
    cases h
    rfl

/-- A Running step leaves the block Running or Halted by an instruction's effect, or Faulted with a record (R30). -/
theorem step_status_cases {s t : State} (hs : s.status = .running) (h : step s = .next t) :
    t.status = .running ∨ t.status = .halted ∨ (t.status = .faulted ∧ t.fault.isSome = true) := by
  obtain ⟨i, _, heffect⟩ | ⟨c, rfl⟩ := step_effect hs h
  · obtain hsame | ⟨_, hhalted⟩ := heffect.status_cases
    · exact .inl (hsame.trans hs)
    · exact .inr (.inl hhalted)
  · exact .inr (.inr ⟨rfl, rfl⟩)

/-- Settles O18: by the inversion of a Running step, and HLT as the one instruction whose effect halts. -/
theorem runStateTransitions : Obligations.RunStateTransitions := by
  unfold Obligations.RunStateTransitions
  refine fun s => ⟨step_not_running, fun hs => ?_⟩
  obtain ⟨t, ht⟩ := step_answers hs
  exact ⟨t, ht, step_status_cases hs ht, (step_halts_iff hs ht).trans (fetch_hlt_iff s)⟩

end Machine
end Sys2Proof
end

section
/-! The fetch unit and the decoder agree: the instruction that memory's bytes from `pc` on decode to is the one the
fetch unit answers (30_encoding.md R51, 40_fetch_decode_dispatch.md R60). -/

namespace Sys2Proof

/-- What the decoder accepts: a row's byte, then as many operand bytes as its length has. -/
theorem decode_cons_eq_ok {op : Byte} {tail rest : List Byte} {i : Instr} (h : decode (op :: tail) = .ok (i, rest)) :
    ∃ o : Opcode, op = o.toByte ∧
      ((o.length = 1 ∧ i = o.assemble 0 0) ∨
        (∃ f1, o.length = 2 ∧ tail = f1 :: rest ∧ i = o.assemble f1 0) ∨
        ∃ f1 f2, o.length = 3 ∧ tail = f1 :: f2 :: rest ∧ i = o.assemble f1 f2) := by
  simp only [decode] at h
  split at h
  · cases h
  · next o ho =>
    refine ⟨o, (Opcode.toByte_of_ofByte ho).symm, ?_⟩
    split at h
    · next hlen => cases h; exact .inl ⟨hlen, rfl⟩
    · next hlen => cases h; exact .inr (.inl ⟨_, hlen, rfl, rfl⟩)
    · next hlen => cases h; exact .inr (.inr ⟨_, _, hlen, rfl, rfl⟩)
    · cases h

namespace Machine

/-- There is a byte at an address exactly when the address exists. -/
theorem Memory.bytesFrom_eq_cons {m : Memory} {a : Nat} {b : Byte} {bs : List Byte} (h : m.bytesFrom a = b :: bs) :
    a < 256 ∧ m.read a = b ∧ m.bytesFrom (a + 1) = bs := by
  by_cases ha : a < 256
  · rw [Memory.bytesFrom_cons m a ha, List.cons.injEq] at h
    exact ⟨ha, h⟩
  · rw [Memory.bytesFrom_end m a (Nat.le_of_not_lt ha)] at h
    cases h

/-- The fetch unit meets an operand byte where the decoder does. -/
theorem fetchOperand_of_bytesFrom {s : State} {o : Opcode} {n : Nat} {f : Byte} {bs : List Byte} (hn : n < o.length)
    (h : s.mem.bytesFrom (s.pc.toNat + n) = f :: bs) : fetchOperand s o n = .ok f := by
  obtain ⟨hin, hread, _⟩ := Memory.bytesFrom_eq_cons h
  rw [fetchOperand_inside hn hin, byteAt_def, hread]

theorem fetch_of_decode {s : State} {i : Instr} {rest : List Byte} (hpc : s.pc.toNat < 256)
    (h : decode (s.mem.bytesFrom s.pc.toNat) = .ok (i, rest)) : fetch s = .ok i := by
  rw [Memory.bytesFrom_cons _ _ hpc] at h
  obtain ⟨o, hop, hops⟩ := decode_cons_eq_ok h
  rw [fetch_of_row hpc hop]
  obtain ⟨hlen, rfl⟩ | ⟨f1, hlen, htail, rfl⟩ | ⟨f1, f2, hlen, htail, rfl⟩ := hops
  · rw [fetchOperand_absent (by omega), fetchOperand_absent (by omega)]
    rfl
  · rw [fetchOperand_of_bytesFrom (by omega) htail, fetchOperand_absent (by omega)]
    rfl
  · obtain ⟨_, _, htail2⟩ := Memory.bytesFrom_eq_cons htail
    rw [fetchOperand_of_bytesFrom (by omega) htail, fetchOperand_of_bytesFrom (by omega) htail2]
    rfl

/-- Settles O11: the step runs what the fetch unit answers, and that is what the bytes decode to. -/
theorem stepRunsDecodedInstruction : Obligations.StepRunsDecodedInstruction := by
  unfold Obligations.StepRunsDecodedInstruction
  intro s i rest hs hpc hdecode
  exact step_of_fetch_ok hs (fetch_of_decode hpc hdecode)

end Machine
end Sys2Proof
end

section
/-! HLT, LDI and PRN: the answer of each, said through the operations of the state, and the rules about them
(41_basic.md R68, R69, R71, R72). -/

namespace Sys2Proof.Machine

theorem exec_hlt (s : State) : exec .hlt s = .next ((s.setStatus .halted).advance 1) := rfl

theorem exec_ldi_inside {r : Byte} (hr : r.toNat < 8) (imm : Byte) (s : State) :
    exec (.ldi r imm) s = .next ((s.writeReg ⟨r.toNat, hr⟩ imm).advance 3) := by
  rw [exec, execLdi, regField_inside hr]
  rfl

theorem exec_prn_written {s : State} {r : Byte} (hr : r.toNat < 8) (hw : s.written[r.toNat] = true) :
    exec (.prn r) s = .next ((s.emit s.regs[r.toNat]).advance 2) := by
  have hread : readReg s ⟨r.toNat, hr⟩ = .ok s.regs[r.toNat] := readReg_written hw
  simp only [exec, execPrn, regField_inside hr, hread, commit, bind, Except.bind]

theorem exec_prn_unwritten {s : State} {r : Byte} (hr : r.toNat < 8) (hw : s.written[r.toNat] = false) :
    exec (.prn r) s = .next (takeFault (.uninitializedRegister ⟨r.toNat, hr⟩) s) := by
  have hread : readReg s ⟨r.toNat, hr⟩ = .error (.uninitializedRegister ⟨r.toNat, hr⟩) := readReg_unwritten hw
  simp only [exec, execPrn, regField_inside hr, hread, commit, bind, Except.bind]

theorem exitStatus_of_halted {s : State} (h : s.status = .halted) : exitStatus s = some 0 := by
  simp only [exitStatus, h]

/-- Settles O35: HLT's answer is Halted, and the inversion of `exec` leaves no other way out of Running but a fault. -/
theorem hltIsTheOnlyCleanEnd : Obligations.HltIsTheOnlyCleanEnd := by
  unfold Obligations.HltIsTheOnlyCleanEnd
  constructor
  · intro s
    exact ⟨_, exec_hlt s, exitStatus_of_halted rfl⟩
  · intro i s t hs h
    obtain heffect | ⟨c, rfl⟩ := exec_effect h
    · obtain hkept | hhalted := heffect.status_cases
      · exact .inl (hkept.trans hs)
      · exact .inr (.inr hhalted)
    · exact .inr (.inl (takeFault_status c s))

/-- Settles O19: the state HLT leaves, field by field, and the exit status of a Halted state. -/
theorem hltHaltsAndAdvances : Obligations.HltHaltsAndAdvances := by
  unfold Obligations.HltHaltsAndAdvances
  exact fun s => ⟨exec_hlt s, exitStatus_of_halted rfl⟩

/-- Settles O20: a field below 8 names a register, and writing it needs nothing of the state. -/
theorem ldiWritesImmediate : Obligations.LdiWritesImmediate := by
  unfold Obligations.LdiWritesImmediate
  exact fun s _ imm hr => exec_ldi_inside hr imm s

/-- Settles O21: the read of the register, which answers exactly when it is written, decides the case. -/
theorem prnEmitsRegister : Obligations.PrnEmitsRegister := by
  unfold Obligations.PrnEmitsRegister
  exact fun _ _ hr => ⟨exec_prn_written hr, exec_prn_unwritten hr⟩

end Sys2Proof.Machine
end

section
/-! ADD, MUL and CMP: the ALU's laws as numbers, the three answers of the pseudocode the instructions share, and the
rules about them (42_alu.md R75 to R78). -/

namespace Sys2Proof.Machine

/-! ### The ALU -/

/-- A byte is made of the low 8 bits of a number, so reducing the number first changes nothing (R75). -/
theorem byte_ofNat_mod_256 (n : Nat) : BitVec.ofNat 8 (n % 256) = BitVec.ofNat 8 n :=
  BitVec.eq_of_toNat_eq (by simp only [BitVec.toNat_ofNat, Nat.reducePow, Nat.mod_mod])

theorem alu_add (x y : Byte) : alu .add x y = .byte (BitVec.ofNat 8 ((x.toNat + y.toNat) % 256)) :=
  congrArg AluResult.byte (byte_ofNat_mod_256 _).symm

theorem alu_mul (x y : Byte) : alu .mul x y = .byte (BitVec.ofNat 8 ((x.toNat * y.toNat) % 256)) :=
  congrArg AluResult.byte (byte_ofNat_mod_256 _).symm

theorem alu_cmp (x y : Byte) : alu .cmp x y = .equality (decide (x.toNat = y.toNat)) :=
  congrArg AluResult.equality (decide_eq_decide.2 BitVec.toNat_inj.symm)

theorem compareFlagOf_beq (x y : Byte) : compareFlagOf (x == y) = if x = y then .isTrue else .isFalse := by
  simp only [compareFlagOf, beq_iff_eq]

/-- A register that holds a value keeps its written bit: the write changes the value alone. -/
theorem writeReg_of_written {s : State} {i : RegId} (h : s.written[i] = true) (v : Byte) :
    s.writeReg i v = { s with regs := s.regs.set i v } := by
  have hset : s.written.set i true = s.written := by
    simp only [Fin.getElem_fin] at h
    rw [← h]
    exact Vector.set_getElem_self _
  rw [State.writeReg, hset]

/-! ### The answers of the shared pseudocode -/

theorem exec_add (a b : Byte) (s : State) : exec (.add a b) s = commit s (aluInstr .add a b s) := rfl

theorem exec_mul (a b : Byte) (s : State) : exec (.mul a b) s = commit s (aluInstr .mul a b s) := rfl

theorem exec_cmp (a b : Byte) (s : State) : exec (.cmp a b) s = commit s (aluInstr .cmp a b s) := rfl

section

variable {a b : Byte} {s : State} (ha : a.toNat < 8) (hb : b.toNat < 8)

theorem commit_aluInstr_written (op : AluOp) (wa : s.written[a.toNat] = true) (wb : s.written[b.toNat] = true) :
    commit s (aluInstr op a b s) =
      .next ((aluWriteBack s ⟨a.toNat, ha⟩ (alu op s.regs[a.toNat] s.regs[b.toNat])).advance 3) := by
  rw [aluInstr_completes ha hb wa wb, commit]

include hb in
/-- `x[a]` is read first: its fault does not ask about `b` (D10). -/
theorem commit_aluInstr_unwritten_fst (op : AluOp) (wa : s.written[a.toNat] = false) :
    commit s (aluInstr op a b s) = .next (takeFault (.uninitializedRegister ⟨a.toNat, ha⟩) s) := by
  have hread : readReg s ⟨a.toNat, ha⟩ = .error (.uninitializedRegister ⟨a.toNat, ha⟩) := readReg_unwritten wa
  simp only [aluInstr, regField_inside ha, regField_inside hb, hread, commit, bind, Except.bind]

theorem commit_aluInstr_unwritten_snd (op : AluOp) (wa : s.written[a.toNat] = true)
    (wb : s.written[b.toNat] = false) :
    commit s (aluInstr op a b s) = .next (takeFault (.uninitializedRegister ⟨b.toNat, hb⟩) s) := by
  have hreadA : readReg s ⟨a.toNat, ha⟩ = .ok s.regs[a.toNat] := readReg_written wa
  have hreadB : readReg s ⟨b.toNat, hb⟩ = .error (.uninitializedRegister ⟨b.toNat, hb⟩) := readReg_unwritten wb
  simp only [aluInstr, regField_inside ha, regField_inside hb, hreadA, hreadB, commit, bind, Except.bind]

/-- An ALU result that is a byte: the register changes, its written bit does not. -/
theorem aluWriteBack_byte_advance (wa : s.written[a.toNat] = true) (v : Byte) :
    (aluWriteBack s ⟨a.toNat, ha⟩ (.byte v)).advance 3 =
      { s with regs := s.regs.set a.toNat v, pc := s.pc + 3 } := by
  rw [aluWriteBack, writeReg_of_written (i := ⟨a.toNat, ha⟩) wa]
  rfl

end

/-- Settles O22: the laws are the ALU's own, and neither effect names a field but the registers and the program
counter. -/
theorem aluArithmeticLaws : Obligations.AluArithmeticLaws := by
  unfold Obligations.AluArithmeticLaws
  refine ⟨alu_add, alu_mul, alu_cmp, ?_⟩
  rintro a b s t (h | h)
  · cases h.effect with
    | add => rfl
  · cases h.effect with
    | mul => rfl

/-- Settles O23: the reads of `a` and of `b`, in that order, decide the case. -/
theorem addSumsModulo256 : Obligations.AddSumsModulo256 := by
  unfold Obligations.AddSumsModulo256
  intro s a b ha hb
  rw [exec_add]
  refine ⟨fun wa wb => ?_, commit_aluInstr_unwritten_fst ha hb .add, commit_aluInstr_unwritten_snd ha hb .add⟩
  rw [commit_aluInstr_written ha hb .add wa wb, alu_add, aluWriteBack_byte_advance ha wa]

/-- Settles O24: as for ADD, with the product for the sum. -/
theorem mulMultipliesModulo256 : Obligations.MulMultipliesModulo256 := by
  unfold Obligations.MulMultipliesModulo256
  intro s a b ha hb
  rw [exec_mul]
  refine ⟨fun wa wb => ?_, commit_aluInstr_unwritten_fst ha hb .mul, commit_aluInstr_unwritten_snd ha hb .mul⟩
  rw [commit_aluInstr_written ha hb .mul wa wb, alu_mul, aluWriteBack_byte_advance ha wa]

/-- Settles O25: as for ADD, but the result is an equality and goes to the flag. -/
theorem cmpSetsFlagToEquality : Obligations.CmpSetsFlagToEquality := by
  unfold Obligations.CmpSetsFlagToEquality
  intro s a b ha hb
  rw [exec_cmp]
  refine ⟨fun wa wb => ?_, commit_aluInstr_unwritten_fst ha hb .cmp, commit_aluInstr_unwritten_snd ha hb .cmp⟩
  rw [commit_aluInstr_written ha hb .cmp wa wb, ← compareFlagOf_beq]
  rfl

end Sys2Proof.Machine
end

section
/-! PUSH and POP: the state once SP has moved, the answers of each instruction, and the rules about them (43_stack.md R79,
R82, R83). -/

namespace Sys2Proof.Machine

section

variable {s : State}

/-! ### The stack pointer -/

/-- SP holds a value already, so moving it changes its number alone. -/
theorem spDown_of_written (hsp : s.written[7] = true) :
    s.spDown = { s with regs := s.regs.set 7 (BitVec.ofNat 8 (s.regs[7].toNat - 1)) } :=
  writeReg_of_written (i := Config.spIndex) hsp _

theorem spUp_of_written (hsp : s.written[7] = true) :
    s.spUp = { s with regs := s.regs.set 7 (BitVec.ofNat 8 (s.regs[7].toNat + 1)) } :=
  writeReg_of_written (i := Config.spIndex) hsp _

theorem spDown_written_of_written (hsp : s.written[7] = true) : s.spDown.written = s.written := by
  rw [spDown_of_written hsp]

theorem spDown_regs_get (i : RegId) :
    s.spDown.regs[i] = if i.val = 7 then BitVec.ofNat 8 (s.regs[7].toNat - 1) else s.regs[i] := by
  rw [State.spDown, writeReg_regs_get]
  simp only [Fin.ext_iff, eq_comm (b := i.val)]
  rfl

/-- The decremented SP is a byte, so its number is the difference itself. -/
theorem spDown_sp_toNat : s.spDown.regs[7].toNat = s.regs[7].toNat - 1 := by
  have hget : s.spDown.regs[7] = BitVec.ofNat 8 (s.regs[7].toNat - 1) := spDown_regs_get Config.spIndex
  rw [hget, BitVec.toNat_ofNat]
  omega

theorem writeReg_sp_written (hsp : s.written[7] = true) (i : RegId) (v : Byte) : (s.writeReg i v).written[7] = true := by
  have hget := writeReg_written_get s i Config.spIndex v
  simpa [hsp] using hget

theorem writeReg_sp_of_ne {i : RegId} (hi : i.val ≠ 7) (v : Byte) : (s.writeReg i v).regs[7] = s.regs[7] :=
  (writeReg_regs_get s i Config.spIndex v).trans (if_neg fun h => hi (congrArg Fin.val h))

theorem writeReg_sp_of_eq {i : RegId} (hi : i.val = 7) (v : Byte) : (s.writeReg i v).regs[7] = v :=
  (writeReg_regs_get s i Config.spIndex v).trans (if_pos (Fin.ext hi))

theorem writeReg_writeReg_same (i : RegId) (v w : Byte) : (s.writeReg i v).writeReg i w = s.writeReg i w := by
  simp only [State.writeReg, Vector.set_set]

/-! ### The answers -/

variable {r : Byte} (hr : r.toNat < 8) (hsp : s.written[7] = true)

include hsp in
theorem exec_push_written (hne : s.regs[7].toNat ≠ 0) (hw : s.written[r.toNat] = true) :
    exec (.push r) s = .next ((s.spDown.setByte s.spDown.regs[7].toNat s.spDown.regs[r.toNat]).advance 2) := by
  have hkept := spDown_written_of_written hsp
  have hdec : decrementSp s = .ok s.spDown := decrementSp_eq_ok.2 ⟨hsp, hne, rfl⟩
  have hread : readReg s.spDown ⟨r.toNat, hr⟩ = .ok s.spDown.regs[r.toNat] := readReg_written (by simpa [hkept] using hw)
  have hstore := storeAtSp_spec (s := s.spDown) (by rwa [hkept]) s.spDown.regs[r.toNat]
  simp only [exec, execPush, regField_inside hr, hdec, hread, hstore, commit, bind, Except.bind]

include hr hsp in
/-- SP is decremented before the register is read: on a full stack it does not matter what the register holds (D10). -/
theorem exec_push_full (hz : s.regs[7].toNat = 0) :
    exec (.push r) s = .next (takeFault (.outOfBounds .mem (-1)) s) := by
  have hdec : decrementSp s = .error (.outOfBounds .mem (-1)) := (decrementSp_spec hsp).trans (if_pos hz)
  simp only [exec, execPush, regField_inside hr, hdec, commit, bind, Except.bind]

include hsp in
/-- The decrement is discarded with the rest of the working copy (R21). -/
theorem exec_push_unwritten (hne : s.regs[7].toNat ≠ 0) (hw : s.written[r.toNat] = false) :
    exec (.push r) s = .next (takeFault (.uninitializedRegister ⟨r.toNat, hr⟩) s) := by
  have hkept := spDown_written_of_written hsp
  have hdec : decrementSp s = .ok s.spDown := decrementSp_eq_ok.2 ⟨hsp, hne, rfl⟩
  have hread : readReg s.spDown ⟨r.toNat, hr⟩ = .error (.uninitializedRegister ⟨r.toNat, hr⟩) :=
    readReg_unwritten (by simpa [hkept] using hw)
  simp only [exec, execPush, regField_inside hr, hdec, hread, commit, bind, Except.bind]

include hsp in
/-- Whether POP completes is asked of SP after the popped byte has been written (D12). -/
theorem exec_pop_completes (hne : (s.writeReg ⟨r.toNat, hr⟩ (s.byteAt s.regs[7].toNat)).regs[7].toNat ≠ 255) :
    exec (.pop r) s = .next ((s.writeReg ⟨r.toNat, hr⟩ (s.byteAt s.regs[7].toNat)).spUp.advance 2) := by
  have hinc := incrementSp_eq_ok.2 ⟨writeReg_sp_written hsp _ _, hne, rfl⟩
  simp only [exec, execPop, regField_inside hr, loadAtSp_spec hsp, hinc, commit, bind, Except.bind]

include hsp in
theorem exec_pop_overflow (htop : (s.writeReg ⟨r.toNat, hr⟩ (s.byteAt s.regs[7].toNat)).regs[7].toNat = 255) :
    exec (.pop r) s = .next (takeFault (.outOfBounds .spovf 256) s) := by
  have hinc := (incrementSp_spec (writeReg_sp_written hsp _ _)).trans (if_pos htop)
  simp only [exec, execPop, regField_inside hr, loadAtSp_spec hsp, hinc, commit, bind, Except.bind]

/-! ### The states PUSH and POP leave, field by field -/

include hsp

/-- PUSH R7 stores the decremented SP; any other register is as it was (D12). -/
theorem push_effect_fields :
    (s.spDown.setByte s.spDown.regs[7].toNat s.spDown.regs[r.toNat]).advance 2 =
      { s with
        regs := s.regs.set 7 (BitVec.ofNat 8 (s.regs[7].toNat - 1))
        mem := s.mem.write (s.regs[7].toNat - 1)
          (if r.toNat = 7 then BitVec.ofNat 8 (s.regs[7].toNat - 1) else s.regs[r.toNat])
        pc := s.pc + 2 } := by
  have hval := spDown_regs_get (s := s) ⟨r.toNat, hr⟩
  simp only [Fin.getElem_fin] at hval
  rw [spDown_sp_toNat, hval, spDown_of_written hsp]
  rfl

theorem pop_effect_fields_of_ne (hne : r.toNat ≠ 7) (v : Byte) :
    (s.writeReg ⟨r.toNat, hr⟩ v).spUp.advance 2 =
      { s with
        regs := (s.regs.set r.toNat v).set 7 (BitVec.ofNat 8 (s.regs[7].toNat + 1))
        written := s.written.set r.toNat true
        pc := s.pc + 2 } := by
  rw [spUp_of_written (writeReg_sp_written hsp _ _), writeReg_sp_of_ne hne]
  rfl

/-- POP R7: the increment is of the popped byte, and overwrites it (D12). -/
theorem pop_effect_fields_of_eq (heq : r.toNat = 7) (v : Byte) :
    (s.writeReg ⟨r.toNat, hr⟩ v).spUp.advance 2 =
      { s with regs := s.regs.set 7 (BitVec.ofNat 8 (v.toNat + 1)), pc := s.pc + 2 } := by
  have hi : (⟨r.toNat, hr⟩ : RegId) = Config.spIndex := Fin.ext heq
  rw [State.spUp, writeReg_sp_of_eq heq, hi, writeReg_writeReg_same, writeReg_of_written hsp]
  rfl

end

/-- Settles O26: the decrement, then the read of the register, decide the case. -/
theorem pushDecrementsThenStores : Obligations.PushDecrementsThenStores := by
  unfold Obligations.PushDecrementsThenStores
  intro s r hr hsp
  refine ⟨fun hne hw => ?_, exec_push_full hr hsp, exec_push_unwritten hr hsp⟩
  rw [exec_push_written hr hsp hne hw, push_effect_fields hr hsp]

/-- Settles O27: SP as the write of the popped byte left it, the byte itself for R7, decides the case. -/
theorem popReadsThenIncrements : Obligations.PopReadsThenIncrements := by
  unfold Obligations.PopReadsThenIncrements
  intro s r hr hsp
  refine ⟨fun hne htop => ?other, fun heq htop => ?sp, fun hne htop => ?otherOverflow, fun heq htop => ?spOverflow⟩
  case other =>
    rw [exec_pop_completes hr hsp (by rwa [writeReg_sp_of_ne hne]), pop_effect_fields_of_ne hr hsp hne]
  case sp =>
    rw [exec_pop_completes hr hsp (by rwa [writeReg_sp_of_eq heq]), pop_effect_fields_of_eq hr hsp heq]
  case otherOverflow => exact exec_pop_overflow hr hsp (by rwa [writeReg_sp_of_ne hne])
  case spOverflow => exact exec_pop_overflow hr hsp (by rwa [writeReg_sp_of_eq heq])

end Sys2Proof.Machine
end

section
/-! CALL, RET, JMP, JEQ and JNE: the jump they share, the answers of each instruction, and the rules about them
(44_control_transfer.md R84, R87 to R91). -/

namespace Sys2Proof.Machine

section

variable {s : State}

/-! ### The jump -/

theorem setPc_pcOfByte (v : Byte) : s.setPc (pcOfByte v) = { s with pc := BitVec.ofNat 9 v.toNat } := by
  rw [pcOfByte_eq, State.setPc]

/-- The jump is the last statement of a body, and what stands before it has made the working copy `u` from `s` (R21). -/
theorem commit_jumpToReg_written {u : State} {i : RegId} (hw : u.written[i] = true) :
    commit s (jumpToReg u i) = .next { u with pc := BitVec.ofNat 9 u.regs[i].toNat } := by
  rw [jumpToReg_written hw, commit, setPc_pcOfByte]

/-- A jump that faults discards the working copy (R21). -/
theorem commit_jumpToReg_unwritten {u : State} {i : RegId} (hw : u.written[i] = false) :
    commit s (jumpToReg u i) = .next (takeFault (.uninitializedRegister i) s) := by
  rw [jumpToReg_unwritten hw, commit]

/-! ### CALL before its jump -/

/-- The working copy of CALL before its jump: SP one lower, the return address stored there (R87). -/
def State.pushReturn (s : State) : State :=
  s.spDown.setByte s.spDown.regs[7].toNat (BitVec.ofNat 8 (s.pc.toNat + 2))

theorem pushReturn_regs_get (i : RegId) :
    s.pushReturn.regs[i] = if i.val = 7 then BitVec.ofNat 8 (s.regs[7].toNat - 1) else s.regs[i] :=
  spDown_regs_get i

/-- CALL R7 finds the decremented SP, a byte as it is (D12). -/
theorem pushReturn_regs_get_toNat (i : RegId) :
    s.pushReturn.regs[i].toNat = if i.val = 7 then s.regs[7].toNat - 1 else s.regs[i].toNat := by
  rw [pushReturn_regs_get, apply_ite BitVec.toNat, BitVec.toNat_ofNat, Nat.mod_eq_of_lt (by omega)]

theorem pushReturn_of_written (hsp : s.written[7] = true) :
    s.pushReturn = { s with
      regs := s.regs.set 7 (BitVec.ofNat 8 (s.regs[7].toNat - 1))
      mem := s.mem.write (s.regs[7].toNat - 1) (BitVec.ofNat 8 (s.pc.toNat + 2)) } := by
  rw [State.pushReturn, spDown_sp_toNat, spDown_of_written hsp, State.setByte]

theorem pushReturn_written_of_written (hsp : s.written[7] = true) : s.pushReturn.written = s.written := by
  rw [pushReturn_of_written hsp]

/-! ### RET -/

theorem exec_ret_completes (hsp : s.written[7] = true) (hne : s.regs[7].toNat ≠ 255) :
    exec .ret s = .next (s.spUp.setPc (pcOfByte (s.byteAt s.regs[7].toNat))) := by
  have hinc : incrementSp s = .ok s.spUp := incrementSp_eq_ok.2 ⟨hsp, hne, rfl⟩
  simp only [exec, execRet, loadAtSp_spec hsp, hinc, commit, bind, Except.bind]

theorem exec_ret_overflow (hsp : s.written[7] = true) (htop : s.regs[7].toNat = 255) :
    exec .ret s = .next (takeFault (.outOfBounds .spovf 256) s) := by
  have hinc : incrementSp s = .error (.outOfBounds .spovf 256) := (incrementSp_spec hsp).trans (if_pos htop)
  simp only [exec, execRet, loadAtSp_spec hsp, hinc, commit, bind, Except.bind]

/-! ### JMP, JEQ and JNE -/

variable {r : Byte} (hr : r.toNat < 8)

theorem exec_jmp_inside : exec (.jmp r) s = commit s (jumpToReg s ⟨r.toNat, hr⟩) := by
  simp only [exec, execJmp, regField_inside hr, bind, Except.bind]

theorem exec_jeq (r : Byte) (s : State) : exec (.jeq r) s = commit s (condJump true r s) := rfl

theorem exec_jne (r : Byte) (s : State) : exec (.jne r) s = commit s (condJump false r s) := rfl

/-- The flag that is wanted leaves the jump (R90, R91). -/
theorem condJump_taken {want : Bool} (hflag : s.eq = compareFlagOf want) :
    condJump want r s = jumpToReg s ⟨r.toNat, hr⟩ := by
  have htaken : jumpTaken want s.eq = .ok true := jumpTaken_eq_ok.2 (by simpa using hflag)
  simp only [condJump_spec hr, htaken, bind, Except.bind, if_true]

include hr in
/-- The flag that is set but not wanted leaves no read of the register (D11). -/
theorem condJump_not_taken {want : Bool} (hflag : s.eq = compareFlagOf (!want)) :
    condJump want r s = .ok (s.advance 2) := by
  have htaken : jumpTaken want s.eq = .ok false := jumpTaken_eq_ok.2 (by simpa using hflag)
  simp only [condJump_spec hr, htaken, bind, Except.bind, Bool.false_eq_true, if_false]

include hr in
theorem condJump_unset (want : Bool) (hflag : s.eq = .unset) : condJump want r s = .error .unsetComparisonFlag := by
  simp only [condJump_spec hr, hflag, jumpTaken, bind, Except.bind]

/-- What the pseudocode JEQ and JNE share answers, by the flag and, only when it jumps, by the register (R90, R91). -/
theorem commit_condJump_answers (want : Bool) :
    (s.eq = compareFlagOf want → s.written[r.toNat] = true →
      commit s (condJump want r s) = .next { s with pc := BitVec.ofNat 9 s.regs[r.toNat].toNat }) ∧
    (s.eq = compareFlagOf (!want) → commit s (condJump want r s) = .next { s with pc := s.pc + 2 }) ∧
    (s.eq = .unset → commit s (condJump want r s) = .next (takeFault .unsetComparisonFlag s)) ∧
    (s.eq = compareFlagOf want → s.written[r.toNat] = false →
      commit s (condJump want r s) = .next (takeFault (.uninitializedRegister ⟨r.toNat, hr⟩) s)) := by
  refine ⟨fun hflag hw => ?taken, fun hflag => ?notTaken, fun hflag => ?unset, fun hflag hw => ?unwritten⟩
  case taken => rw [condJump_taken hr hflag, commit_jumpToReg_written hw]; rfl
  case notTaken => rw [condJump_not_taken hr hflag]; rfl
  case unset => rw [condJump_unset hr want hflag, commit]
  case unwritten => rw [condJump_taken hr hflag, commit_jumpToReg_unwritten hw]

/-! ### CALL -/

variable (hsp : s.written[7] = true)

include hsp

/-- With room on the stack and a return address that fits a byte, only the jump can still fault. -/
theorem exec_call_pushed (hne : s.regs[7].toNat ≠ 0) (hra : s.pc.toNat + 2 ≤ 255) :
    exec (.call r) s = commit s (jumpToReg s.pushReturn ⟨r.toNat, hr⟩) := by
  have hdec : decrementSp s = .ok s.spDown := decrementSp_eq_ok.2 ⟨hsp, hne, rfl⟩
  have hret : returnAddress s.spDown = .ok (BitVec.ofNat 8 (s.pc.toNat + 2)) := returnAddress_fits (s := s.spDown) hra
  have hstore : storeAtSp s.spDown (BitVec.ofNat 8 (s.pc.toNat + 2)) = .ok s.pushReturn :=
    storeAtSp_spec (by rwa [spDown_written_of_written hsp]) _
  simp only [exec, execCall, regField_inside hr, hdec, hret, hstore, bind, Except.bind]

include hr in
/-- A full stack faults first, whatever `pc` and the register are (D10). -/
theorem exec_call_full (hz : s.regs[7].toNat = 0) :
    exec (.call r) s = .next (takeFault (.outOfBounds .mem (-1)) s) := by
  have hdec : decrementSp s = .error (.outOfBounds .mem (-1)) := (decrementSp_spec hsp).trans (if_pos hz)
  simp only [exec, execCall, regField_inside hr, hdec, commit, bind, Except.bind]

include hr in
/-- A return address that fits no byte faults before the register is read, and the decrement is discarded (D8, D10). -/
theorem exec_call_overflow (hne : s.regs[7].toNat ≠ 0) (hra : 255 < s.pc.toNat + 2) :
    exec (.call r) s = .next (takeFault (.outOfBounds .retaddr (s.pc.toNat + 2)) s) := by
  have hdec : decrementSp s = .ok s.spDown := decrementSp_eq_ok.2 ⟨hsp, hne, rfl⟩
  have hret : returnAddress s.spDown = .error (.outOfBounds .retaddr (s.pc.toNat + 2)) :=
    returnAddress_overflow (s := s.spDown) hra
  simp only [exec, execCall, regField_inside hr, hdec, hret, commit, bind, Except.bind]

/-- The state CALL leaves, field by field. -/
theorem call_effect_fields :
    { s.pushReturn with pc := BitVec.ofNat 9 s.pushReturn.regs[(⟨r.toNat, hr⟩ : RegId)].toNat } =
      { s with
        regs := s.regs.set 7 (BitVec.ofNat 8 (s.regs[7].toNat - 1))
        mem := s.mem.write (s.regs[7].toNat - 1) (BitVec.ofNat 8 (s.pc.toNat + 2))
        pc := BitVec.ofNat 9 (if r.toNat = 7 then s.regs[7].toNat - 1 else s.regs[r.toNat].toNat) } := by
  rw [pushReturn_regs_get_toNat, pushReturn_of_written hsp]
  rfl

end

/-- Settles O28: the decrement of SP, the return address and the jump, in that order, decide the case. -/
theorem callStoresReturnAddressAndJumps : Obligations.CallStoresReturnAddressAndJumps := by
  unfold Obligations.CallStoresReturnAddressAndJumps
  intro s r hr hsp
  have hkept := pushReturn_written_of_written hsp
  refine ⟨fun hne hra hw => ?completes, exec_call_full hr hsp, exec_call_overflow hr hsp, fun hne hra hw => ?unwritten⟩
  case completes =>
    rw [exec_call_pushed hr hsp hne hra, commit_jumpToReg_written (by simpa [hkept] using hw),
      call_effect_fields hr hsp]
  case unwritten =>
    rw [exec_call_pushed hr hsp hne hra, commit_jumpToReg_unwritten (by simpa [hkept] using hw)]

/-- Settles O29: the load never faults, so the increment of SP decides the case. -/
theorem retPopsProgramCounter : Obligations.RetPopsProgramCounter := by
  unfold Obligations.RetPopsProgramCounter
  intro s hsp
  refine ⟨fun hne => ?_, exec_ret_overflow hsp⟩
  rw [exec_ret_completes hsp hne, setPc_pcOfByte, spUp_of_written hsp]

/-- Settles O30: the jump is the whole instruction. -/
theorem jmpSetsProgramCounter : Obligations.JmpSetsProgramCounter := by
  unfold Obligations.JmpSetsProgramCounter
  intro s r hr
  rw [exec_jmp_inside hr]
  exact ⟨fun hw => commit_jumpToReg_written hw, fun hw => commit_jumpToReg_unwritten hw⟩

/-- Settles O31: the shared pseudocode, with TRUE wanted. -/
theorem jeqJumpsWhenTrue : Obligations.JeqJumpsWhenTrue := by
  unfold Obligations.JeqJumpsWhenTrue
  intro s r hr
  rw [exec_jeq]
  exact commit_condJump_answers hr true

/-- Settles O32: the shared pseudocode, with FALSE wanted. -/
theorem jneJumpsWhenFalse : Obligations.JneJumpsWhenFalse := by
  unfold Obligations.JneJumpsWhenFalse
  intro s r hr
  rw [exec_jne]
  exact commit_condJump_answers hr false

end Sys2Proof.Machine
end

section
/-! The reset state through the accessors: which registers hold a value, and what memory reads as before the loader
(10_state.md R25, R35; 70_reset_and_hazards.md R106). -/

namespace Sys2Proof.Machine

theorem registerValue_written {s : State} {i : RegId} (h : s.written[i] = true) : registerValue s i = some s.regs[i] :=
  if_pos h

theorem registerValue_unwritten {s : State} {i : RegId} (h : s.written[i] = false) : registerValue s i = none := by
  simp [registerValue, h]

/-- A memory that lists no cell reads as the free value everywhere (R12, R107). -/
@[simp] theorem Memory.read_nil (a : Nat) : Memory.read [] a = Config.initMem a := rfl

/-- Reset marks SP alone as written (D4). -/
theorem reset_written_get (i : RegId) : State.reset.written[i] = decide (i = 7) := by
  revert i; decide

/-- The written bit decides it, so the slots of R0 to R6 are never looked at. -/
theorem registerValue_reset (i : RegId) : registerValue State.reset i = if i = 7 then some 255 else none := by
  by_cases hi : i = 7
  · subst hi
    exact registerValue_written (reset_written_get 7)
  · rw [if_neg hi]
    exact registerValue_unwritten (by rw [reset_written_get, decide_eq_false hi])

/-- Settles O1: the plain fields stand in the reset state as they are, and the registers and memory are read through
the written bits and the empty list of cells. -/
theorem resetValues : Obligations.ResetValues := by
  unfold Obligations.ResetValues
  exact ⟨rfl, rfl, rfl, rfl, rfl, rfl, reset_written_get, registerValue_reset, Memory.read_nil⟩

end Sys2Proof.Machine
end

section
/-! The decoder and the encoder are inverse: a row's byte with two operand values, of which its format takes as many
as it has, is every instruction (30_encoding.md R50, R51, R55). -/

namespace Sys2Proof

/-- The bytes of a row: its opcode byte, then the operand bytes its length has (R51). -/
theorem encode_assemble (o : Opcode) (f1 f2 : Byte) :
    encode (o.assemble f1 f2) = o.toByte :: [f1, f2].take (o.length - 1) := by cases o <;> rfl

/-- Every instruction is its row's; an operand the format lacks may be anything. -/
theorem Instr.eq_assemble (i : Instr) : ∃ f1 f2, i = i.opcode.assemble f1 f2 := by
  cases i with
  | hlt | ret => exact ⟨0, 0, rfl⟩
  | prn r | push r | pop r | call r | jmp r | jeq r | jne r => exact ⟨r, 0, rfl⟩
  | ldi a b | add a b | mul a b | cmp a b => exact ⟨a, b, rfl⟩

/-- The map finds the row by its byte, and the row's length takes its operand bytes and no more. -/
theorem decode_encode_assemble (o : Opcode) (f1 f2 : Byte) (rest : List Byte) :
    decode (encode (o.assemble f1 f2) ++ rest) = .ok (o.assemble f1 f2, rest) := by
  simp only [encode_assemble, List.cons_append, decode, Opcode.ofByte_toByte]
  cases o <;> rfl

theorem decode_encode (i : Instr) (rest : List Byte) : decode (encode i ++ rest) = .ok (i, rest) := by
  obtain ⟨f1, f2, hi⟩ := i.eq_assemble
  rw [hi]
  exact decode_encode_assemble i.opcode f1 f2 rest

theorem encode_of_decode {bs rest : List Byte} {i : Instr} (h : decode bs = .ok (i, rest)) : bs = encode i ++ rest := by
  cases bs with
  | nil => cases h
  | cons op tail =>
    obtain ⟨o, rfl, hops⟩ := decode_cons_eq_ok h
    obtain ⟨hlen, rfl⟩ | ⟨f1, hlen, rfl, rfl⟩ | ⟨f1, f2, hlen, rfl, rfl⟩ := hops
    · have hbytes : o.toByte :: tail = encode (o.assemble 0 0) ++ tail := by simp [encode_assemble, hlen]
      rw [hbytes, decode_encode] at h
      cases h
      exact hbytes
    · simp [encode_assemble, hlen]
    · simp [encode_assemble, hlen]

/-- Settles O9: every instruction is a row with its operand bytes, and of a row the decoder takes what the encoder
wrote. -/
theorem decodeEncodeRoundTrip : Obligations.DecodeEncodeRoundTrip := by
  unfold Obligations.DecodeEncodeRoundTrip
  exact decode_encode

/-- Settles O10: what the decoder accepts is a row's byte and its operand bytes, and that is the row's encoding. -/
theorem decodeAcceptsOnlyEncodings : Obligations.DecodeAcceptsOnlyEncodings := by
  unfold Obligations.DecodeAcceptsOnlyEncodings
  exact fun _ _ _ => encode_of_decode

/-! ### The tables -/

theorem Opcode.mem_all (o : Opcode) : o ∈ Opcode.all := by cases o <;> decide

/-- A byte finds a row exactly when the pair is one of the map's. -/
theorem Opcode.ofByte_eq_some_iff_mem (b : Byte) (o : Opcode) :
    Opcode.ofByte b = some o ↔ (b, o) ∈ Opcode.all.map fun o => (o.toByte, o) := by
  rw [Opcode.ofByte_eq_some_iff]
  constructor
  · rintro rfl
    exact List.mem_map_of_mem o.mem_all
  · intro h
    obtain ⟨_, _, hrow⟩ := List.mem_map.1 h
    cases hrow
    rfl

/-- Settles O6: the map is searched by the bytes of its rows, and each row has its format and its length. -/
theorem opcodeMapRows : Obligations.OpcodeMapRows := by
  unfold Obligations.OpcodeMapRows
  refine ⟨Opcode.ofByte_eq_some_iff_mem, ?n, ?r, ?rr, ?ri, ?one, ?three, Opcode.length_cases⟩
  case n | r | rr | ri | one | three => intro o; cases o <;> decide

/-- Settles O7: each encoding is the opcode byte and the operands, written out. -/
theorem encodingLayout : Obligations.EncodingLayout := by
  unfold Obligations.EncodingLayout
  exact fun a b => ⟨rfl, rfl, rfl, rfl, rfl, rfl, rfl, rfl, rfl, rfl, rfl, rfl, rfl⟩

/-- Settles O8: the words that decode are encodings followed by what is left; the others have no row or too few
bytes. -/
theorem sampleWordsDecode : Obligations.SampleWordsDecode := by
  unfold Obligations.SampleWordsDecode
  exact ⟨decode_encode .hlt [], decode_encode (.ldi 0 8) [], decode_encode (.prn 3) [], decode_encode (.add 1 2) [],
    decode_encode (.pop 7) [0x11], decode_encode (.jne 9) [], rfl, rfl⟩

end Sys2Proof
end

section
/-! What a Running step can do, and what an effect leaves of memory, the program counter, the written bits and the
fault record: the invariant and the frames of the whole machine (10_state.md, 20_memory.md, 60_exceptions.md). -/

namespace Sys2Proof.Machine

/-! ### The fault a step takes -/

theorem RaisedInFetch.ne_unsupported {pc : PcWord} {c : FaultCause} (h : RaisedInFetch pc c) :
    c ≠ .unsupportedALUOperation := by cases h <;> nofun

theorem RaisedInExec.ne_unsupported {c : FaultCause} (h : RaisedInExec c) : c ≠ .unsupportedALUOperation := by
  cases h <;> nofun

/-- A Running step runs to its end, not Faulted, or takes a fault in `s`, never that of an unknown ALU code (R74). -/
theorem step_completes_or_faults {s t : State} (hs : s.status = .running) (h : step s = .next t) :
    t.status ≠ .faulted ∨ ∃ c : FaultCause, c ≠ .unsupportedALUOperation ∧ t = takeFault c s :=
  (step_completes_or_raises hs h).imp_right fun ⟨c, hc, ht⟩ =>
    ⟨c, hc.elim RaisedInFetch.ne_unsupported RaisedInExec.ne_unsupported, ht⟩

/-- Settles O42: a Faulted answer of a Running step is the old state with a fault taken. -/
theorem faultsArePrecise : Obligations.FaultsArePrecise := by
  unfold Obligations.FaultsArePrecise
  intro s t hs h hfaulted
  exact (step_completes_or_faults hs h).resolve_left (not_not_intro hfaulted)

/-! ### The fetch stays inside memory -/

/-- The first missing operand byte is the one at 256, whichever of the two it is (R63). -/
theorem fetch_operand_past_end {s : State} {o : Opcode} (hpc : s.pc.toNat < 256) (hb : s.byteAt s.pc.toNat = o.toByte)
    (hend : 256 < s.pc.toNat + o.length) : fetch s = .error (.outOfBounds .mem 256) := by
  have hlen := o.length_cases
  rw [fetch_of_row hpc hb]
  by_cases hfirst : s.pc.toNat + 1 < 256
  · have haddr : (s.pc.toNat : Int) + (2 : Nat) = 256 := by omega
    rw [fetchOperand_inside (by omega) hfirst, fetchOperand_outside (by omega) (by omega), haddr]
    rfl
  · have haddr : (s.pc.toNat : Int) + (1 : Nat) = 256 := by omega
    rw [fetchOperand_outside (by omega) (by omega), haddr]
    rfl

/-- Settles O14: the fetch ends at the first missing operand byte, and the step takes its fault. -/
theorem operandFetchPastEndFaults : Obligations.OperandFetchPastEndFaults := by
  unfold Obligations.OperandFetchPastEndFaults
  exact fun _ _ hs hpc hb hend => step_of_fetch_error hs (fetch_operand_past_end hpc hb hend)

/-- An instruction that is fetched lies inside memory with its last byte. -/
theorem fetch_ok_fits {s : State} {i : Instr} (h : fetch s = .ok i) : s.pc.toNat + i.opcode.length ≤ 256 := by
  obtain ⟨hpc, hb⟩ := fetch_ok_opcode h
  by_contra hend
  rw [fetch_operand_past_end hpc hb (Nat.lt_of_not_le hend)] at h
  cases h

/-! ### The program counter -/

theorem setPc_pcOfByte_le (s : State) (v : Byte) : (s.setPc (pcOfByte v)).pc.toNat ≤ 255 := by
  rw [setPc_pc, pcOfByte_toNat]
  exact Nat.le_of_lt_succ v.isLt

theorem Effect.pc_of_transfer {s t : State} {i : Instr} (h : Effect s i t) (hi : controlTransfer i = true) :
    t.pc.toNat ≤ 255 ∨
      ∃ r, ((i = .jeq r ∧ s.eq = .isFalse) ∨ (i = .jne r ∧ s.eq = .isTrue)) ∧ t.pc = s.pc + 2 := by
  cases h with
  | hlt | ldi | prn | add | mul | cmp | push | pop => cases hi
  | call | ret | jmp | jeqTaken | jneTaken => exact .inl (setPc_pcOfByte_le _ _)
  | jeqNotTaken _ hflag => exact .inr ⟨_, .inl ⟨rfl, hflag⟩, rfl⟩
  | jneNotTaken _ hflag => exact .inr ⟨_, .inr ⟨rfl, hflag⟩, rfl⟩

/-- Settles O38: by the effects of the five transfers. -/
theorem controlTransferTargets : Obligations.ControlTransferTargets := by
  unfold Obligations.ControlTransferTargets
  exact fun _ _ _ hi h => h.effect.pc_of_transfer hi

/-- An effect jumps to a byte or moves on by the instruction's length, a jump not taken by its 2 (R26, R27). -/
theorem Effect.pc_cases {s t : State} {i : Instr} (h : Effect s i t) :
    t.pc.toNat ≤ 255 ∨ t.pc = s.pc + BitVec.ofNat 9 i.opcode.length := by
  cases hi : controlTransfer i with
  | false => exact .inr (h.pc_of_not_transfer hi)
  | true =>
    obtain hbyte | ⟨r, ⟨rfl, _⟩ | ⟨rfl, _⟩, hpc⟩ := h.pc_of_transfer hi
    · exact .inl hbyte
    · exact .inr hpc
    · exact .inr hpc

/-- After an instruction that was fetched the program counter is at most 256 (R8). -/
theorem Effect.pc_le {s t : State} {i : Instr} (h : Effect s i t) (hf : fetch s = .ok i) : t.pc.toNat ≤ 256 := by
  obtain hbyte | hpc := h.pc_cases
  · exact Nat.le_succ_of_le hbyte
  · rw [hpc, advance_toNat_exact _ _ (Nat.le_of_lt_succ (fetch_ok_opcode hf).1)]
    exact fetch_ok_fits hf

/-! ### Memory -/

/-- A store at the decremented SP. -/
theorem spDown_setByte_mem (s : State) (v : Byte) :
    (s.spDown.setByte s.spDown.regs[7].toNat v).mem = s.mem.write (s.regs[7].toNat - 1) v := by
  rw [setByte_mem, spDown_sp_toNat]
  rfl

/-- PUSH and CALL change the one byte below SP; every other effect leaves memory (R38). -/
theorem Effect.mem_cases {s t : State} {i : Instr} (h : Effect s i t) :
    t.mem = s.mem ∨
      (storesByte i = true ∧ s.regs[7].toNat ≠ 0 ∧ ∃ v, t.mem = s.mem.write (s.regs[7].toNat - 1) v) := by
  cases h with
  | push _ _ hne | call _ _ hne =>
    exact .inr ⟨rfl, hne, _, spDown_setByte_mem s _⟩
  | hlt | ldi | prn | add | mul | cmp | pop | ret | jmp | jeqTaken | jeqNotTaken | jneTaken | jneNotTaken =>
    exact .inl rfl

theorem Effect.mem_wf {s t : State} {i : Instr} (h : Effect s i t) (hs : s.mem.wf = true) : t.mem.wf = true := by
  obtain hmem | ⟨_, _, v, hmem⟩ := h.mem_cases
  · rwa [hmem]
  · rw [hmem]
    exact Memory.write_wf _ _ _ (by omega) hs

theorem Effect.byteAt_of_not_stores {s t : State} {i : Instr} (h : Effect s i t) (hi : storesByte i = false) (a : Nat) :
    t.byteAt a = s.byteAt a := by
  obtain hmem | ⟨hstores, _⟩ := h.mem_cases
  · rw [byteAt_def, byteAt_def, hmem]
  · cases hi.symm.trans hstores

theorem Effect.byteAt_of_ne_pushAddress {s t : State} {i : Instr} (h : Effect s i t) {a : Nat}
    (ha : (a : Int) ≠ pushAddress s.regs[7]) : t.byteAt a = s.byteAt a := by
  obtain hmem | ⟨_, hne, v, hmem⟩ := h.mem_cases
  · rw [byteAt_def, byteAt_def, hmem]
  · rw [pushAddress_of_ne_zero hne] at ha
    rw [byteAt_def, byteAt_def, hmem, Memory.read_write, if_neg (by omega)]

/-- No effect makes the machine Faulted (R98). -/
theorem Effect.not_faulted {s t : State} {i : Instr} (h : Effect s i t) (hs : s.status ≠ .faulted) :
    t.status ≠ .faulted := by
  obtain hkept | ⟨_, hhalted⟩ := h.status_cases
  · rwa [hkept]
  · simp [hhalted]

/-- Settles O40: by the one byte an effect can change, and a fault leaves memory. -/
theorem memoryFrame : Obligations.MemoryFrame := by
  unfold Obligations.MemoryFrame
  intro i s t h
  obtain heffect | ⟨c, rfl⟩ := exec_effect h
  · exact ⟨heffect.byteAt_of_not_stores, fun _ _ => heffect.byteAt_of_ne_pushAddress,
      fun ht hs => absurd ht (heffect.not_faulted hs)⟩
  · exact ⟨fun _ _ => rfl, fun _ _ _ => rfl, fun _ _ _ => rfl⟩

/-- Settles O39: only a fetched PUSH or CALL has an effect on memory, and it was fetched by its byte. -/
theorem onlyPushAndCallChangeMemory : Obligations.OnlyPushAndCallChangeMemory := by
  unfold Obligations.OnlyPushAndCallChangeMemory
  intro s t h hne
  by_cases hs : s.status = .running
  · obtain ⟨i, hf, heffect⟩ | ⟨c, rfl⟩ := step_effect hs h
    · obtain ⟨hstores, _⟩ := heffect.mem_cases.resolve_left hne
      obtain ⟨hpc, hb⟩ := fetch_ok_opcode hf
      refine ⟨hpc, ?_⟩
      cases i with
      | push => exact .inl hb
      | call => exact .inr hb
      | hlt | ldi | prn | add | mul | cmp | pop | ret | jmp | jeq | jne => cases hstores
    · exact absurd (takeFault_mem c s) hne
  · rw [step_not_running hs] at h
    cases h
    exact absurd rfl hne

/-! ### Registers -/

/-- Register `k` has the same value and the same written bit in both states. -/
def KeepsRegister (s t : State) (k : RegId) : Prop := t.regs[k] = s.regs[k] ∧ t.written[k] = s.written[k]

theorem writeReg_keeps {i k : RegId} (h : i ≠ k) (s : State) (v : Byte) : KeepsRegister s (s.writeReg i v) k := by
  rw [KeepsRegister, writeReg_regs_get, writeReg_written_get, if_neg h, if_neg h]
  exact ⟨rfl, rfl⟩

theorem set_written_mono {w : Vector Bool 8} {k : RegId} (h : w[k] = true) (i : RegId) :
    (w.set i true)[k] = true := by
  rw [Fin.getElem_fin] at h ⊢
  simp [Vector.getElem_set, h]

/-- A number that is not a register's names another register. -/
theorem named_ne {n : Nat} {hn : n < 8} {k : RegId} (h : k.val ≠ n) : (⟨n, hn⟩ : RegId) ≠ k :=
  fun hk => h (congrArg Fin.val hk).symm

theorem Effect.keeps_register {s t : State} {i : Instr} {k : RegId} (h : Effect s i t) (hk : ¬ mayWrite i k) :
    KeepsRegister s t k := by
  cases h with
  | hlt | prn | cmp | jmp | jeqTaken | jeqNotTaken | jneTaken | jneNotTaken => exact ⟨rfl, rfl⟩
  | ldi | add | mul => exact writeReg_keeps (named_ne hk) s _
  | push | call | ret => exact writeReg_keeps (Ne.symm hk) s _
  | pop hr =>
    obtain ⟨hdest, hsp⟩ := not_or.1 hk
    obtain ⟨hregs, hwritten⟩ := writeReg_keeps (named_ne (hn := hr) hdest) s _
    obtain ⟨hregs', hwritten'⟩ := writeReg_keeps (Ne.symm hsp) (s.writeReg ⟨_, hr⟩ _) _
    exact ⟨hregs'.trans hregs, hwritten'.trans hwritten⟩

/-- No effect takes a register's value away (R25). -/
theorem Effect.written_mono {s t : State} {i : Instr} {k : RegId} (h : Effect s i t) (hk : s.written[k] = true) :
    t.written[k] = true := by
  cases h with
  | hlt | prn | cmp | jmp | jeqTaken | jeqNotTaken | jneTaken | jneNotTaken => exact hk
  | ldi | add | mul | push | call | ret => exact set_written_mono hk _
  | pop => exact set_written_mono (set_written_mono hk _) _

/-- Settles O41: by the registers each effect writes, and a fault writes none. -/
theorem registerFrame : Obligations.RegisterFrame := by
  unfold Obligations.RegisterFrame
  intro i s t k h
  obtain heffect | ⟨c, rfl⟩ := exec_effect h
  · exact ⟨heffect.keeps_register, heffect.written_mono⟩
  · exact ⟨fun _ => ⟨rfl, rfl⟩, id⟩

/-! ### The invariant -/

theorem Effect.fault_eq {s t : State} {i : Instr} (h : Effect s i t) : t.fault = s.fault := by
  cases h <;> rfl

/-- Outside Faulted the invariant leaves no record (R32). -/
theorem State.Inv.fault_eq_none {s : State} (h : s.Inv) (hs : s.status ≠ .faulted) : s.fault = none := by
  rw [← Option.not_isSome_iff_eq_none, h.recordIffFaulted]
  exact hs

theorem Effect.inv {s t : State} {i : Instr} (h : Effect s i t) (hs : s.status = .running) (hf : fetch s = .ok i)
    (hinv : s.Inv) : t.Inv := by
  have hnot : s.status ≠ .faulted := by simp [hs]
  have hnone : t.fault = none := h.fault_eq.trans (hinv.fault_eq_none hnot)
  exact State.inv_of_no_record (h.mem_wf hinv.memCanonical) (h.pc_le hf) (h.written_mono hinv.spWritten) hnone
    (h.not_faulted hnot)

theorem takeFault_inv {s : State} {c : FaultCause} (hc : c ≠ .unsupportedALUOperation) (hinv : s.Inv) :
    (takeFault c s).Inv where
  memCanonical := hinv.memCanonical
  pcInRange := hinv.pcInRange
  spWritten := hinv.spWritten
  recordIffFaulted := by simp
  recordPrecise := by
    intro r hr
    cases hr
    exact ⟨c, hc, rfl⟩

/-- Settles O43: an effect keeps each clause and a fault makes its record; outside Running nothing moves. -/
theorem stepKeepsInvariant : Obligations.StepKeepsInvariant := by
  unfold Obligations.StepKeepsInvariant
  intro s t hinv h
  by_cases hs : s.status = .running
  · obtain ⟨i, hf, heffect⟩ | ⟨_, hfault⟩ := step_effect hs h
    · exact heffect.inv hs hf hinv
    · obtain hok | ⟨c, hc, rfl⟩ := step_completes_or_faults hs h
      · exact absurd (hfault ▸ takeFault_status _ s) hok
      · exact takeFault_inv hc hinv
  · rw [step_not_running hs] at h
    cases h
    exact hinv

/-! ### The events -/

/-- The events are whatever list the trace has gained, so it is enough to name that list (R17, R112). -/
theorem printEvents_iff_append {s t : State} {P : Prop} :
    (t.out = s.out ++ printEvents s t ∧ (printEvents s t).length ≤ 1 ∧ (printEvents s t ≠ [] → P)) ↔
      ∃ vs, t.out = s.out ++ vs ∧ vs.length ≤ 1 ∧ (vs ≠ [] → P) := by
  refine ⟨fun h => ⟨_, h⟩, fun ⟨vs, hout, h⟩ => ?_⟩
  rw [printEvents_of_append hout]
  exact ⟨hout, h⟩

/-- Settles O50: only a fetched PRN appends to the trace, one value, and it was fetched by its byte. -/
theorem printEventsComeFromRunningPrn : Obligations.PrintEventsComeFromRunningPrn := by
  unfold Obligations.PrintEventsComeFromRunningPrn
  intro s t h
  rw [printEvents_iff_append]
  by_cases hs : s.status = .running
  · obtain ⟨i, hf, heffect⟩ | ⟨c, rfl⟩ := step_effect hs h
    · obtain hsame | ⟨r, _, rfl, hout⟩ := heffect.out_cases
      · exact ⟨[], by simp [hsame], by simp, nofun⟩
      · exact ⟨_, hout, by simp, fun _ => ⟨hs, fetch_ok_opcode hf⟩⟩
    · exact ⟨[], by simp, by simp, nofun⟩
  · rw [step_not_running hs] at h
    cases h
    exact ⟨[], by simp, by simp, nofun⟩

end Sys2Proof.Machine
end

section
/-! A byte that PUSH or CALL has stored: what the next fetch meets at its address, and what RET finds there
(20_memory.md R48, 44_control_transfer.md R86). -/

namespace Sys2Proof.Machine

/-! ### What a completed PUSH or CALL has stored -/

/-- A write of `v` at an address that exists, found by the machine that goes on Running. -/
structure Stored (t : State) (a : Nat) (v : Byte) : Prop where
  running : t.status = .running
  inside : a < 256
  held : t.byteAt a = v

theorem Completes.push_stored {s t : State} {r : Byte} (hr : r.toNat < 8) (hs : s.status = .running)
    (h : Completes (.push r) s t) :
    Stored t (s.regs[7].toNat - 1)
      (if r.toNat = 7 then BitVec.ofNat 8 (s.regs[7].toNat - 1) else s.regs[r.toNat]) := by
  cases h.effect with
  | push _ hsp =>
    refine ⟨hs, by omega, ?_⟩
    rw [push_effect_fields hr hsp, byteAt_def, Memory.read_write, if_pos rfl]

/-- The return address is stored below SP, where the SP that CALL leaves points (R87). -/
theorem Completes.call_leaves {s t : State} {r : Byte} (h : Completes (.call r) s t) :
    s.pc.toNat + 2 ≤ 255 ∧ t.regs[7].toNat + 1 = s.regs[7].toNat ∧ t.status = s.status ∧
      t.byteAt t.regs[7].toNat = BitVec.ofNat 8 (s.pc.toNat + 2) := by
  cases h.effect with
  | call _ _ hne hra =>
    have hdown := spDown_sp_toNat (s := s)
    refine ⟨hra, ?_, rfl, ?_⟩
    · simp only [setPc_regs, setByte_regs]
      omega
    · exact (byteAt_setByte _ _ _ _).trans (if_pos rfl)

theorem Completes.call_stored {s t : State} {r : Byte} (hs : s.status = .running) (h : Completes (.call r) s t) :
    Stored t (s.regs[7].toNat - 1) (BitVec.ofNat 8 (s.pc.toNat + 2)) := by
  obtain ⟨_, hsp, hstatus, hbyte⟩ := h.call_leaves
  rw [← hsp, Nat.add_sub_cancel]
  exact ⟨hstatus.trans hs, by omega, hbyte⟩

/-! ### The next fetch -/

/-- The fetch unit meets each byte from an address on at its own place. -/
theorem Memory.bytesFrom_getElem? (m : Memory) {a b : Nat} (hab : a ≤ b) (hb : b < 256) :
    (m.bytesFrom a)[b - a]? = some (m.read b) := by
  have hk : b - a < Config.memSize - a := by
    simp only [Config.memSize]
    omega
  simp [Memory.bytesFrom, hk, Nat.add_sub_cancel' hab]

theorem Stored.seenByNextStep {t : State} {a : Nat} {v : Byte} (h : Stored t a v) : SeenByNextStep t a v where
  held := h.held
  met hpc := by rw [Memory.bytesFrom_getElem? _ hpc h.inside, ← h.held, byteAt_def]
  runs hpc _ _ hdecode := step_of_fetch_ok h.running (fetch_of_decode hpc hdecode)
  unknown hpc hrow := by
    have hbyte : t.byteAt t.pc.toNat = v := hpc ▸ h.held
    rw [← hbyte] at hrow ⊢
    exact step_of_fetch_error h.running (fetch_of_no_row (hpc ▸ h.inside) hrow)

/-- Settles O47: PUSH and CALL leave the byte in memory, and the next step of a Running machine fetches from there. -/
theorem storedByteIsFetchedNext : Obligations.StoredByteIsFetchedNext := by
  unfold Obligations.StoredByteIsFetchedNext
  intro s t r hr hs
  exact ⟨fun h => (h.push_stored hr hs).seenByNextStep, fun h => (h.call_stored hs).seenByNextStep⟩

/-! ### The return -/

theorem spUp_sp_toNat {s : State} (hne : s.regs[7].toNat ≠ 255) : s.spUp.regs[7].toNat = s.regs[7].toNat + 1 := by
  have hget : s.spUp.regs[7] = BitVec.ofNat 8 (s.regs[7].toNat + 1) :=
    (writeReg_regs_get s Config.spIndex Config.spIndex _).trans (if_pos rfl)
  rw [hget, BitVec.toNat_ofNat]
  omega

/-- Settles O46: CALL leaves its return address at the SP it leaves, one below the old; RET reads it back and raises
SP by one. -/
theorem callThenRetReturns : Obligations.CallThenRetReturns := by
  unfold Obligations.CallThenRetReturns
  intro s t u r h hsp hwritten hbyte
  obtain ⟨hra, hdown, _, hstored⟩ := h.call_leaves
  have hne : u.regs[7].toNat ≠ 255 := by
    rw [hsp]
    omega
  refine ⟨_, exec_ret_completes hwritten hne, ?pc, ?sp⟩
  case pc =>
    rw [setPc_pc, pcOfByte_toNat, hsp, hbyte, hstored, BitVec.toNat_ofNat]
    omega
  case sp =>
    apply BitVec.eq_of_toNat_eq
    rw [setPc_regs, spUp_sp_toNat hne, hsp, hdown]

end Sys2Proof.Machine
end

section
/-! PUSH and POP against the ghost stack: one step of each keeps the refinement, and a sequence is the induction over
its steps (43_stack.md R81). -/

namespace Sys2Proof.Machine

/-- The machine in `s` is the ideal one: its registers but SP are the ghost's `g`, and the bytes from SP up are the
ghost stack `st`, top first, whose bottom is below the address `base`. -/
structure RefinesStack (base : Nat) (s : State) (g : Vector Byte 8) (st : List Byte) : Prop where
  regs : ∀ i : RegId, i ≠ 7 → s.regs[i] = g[i]
  sp : s.regs[7].toNat + st.length = base
  stack : ∀ (j : Nat) (h : j < st.length), s.byteAt (s.regs[7].toNat + j) = st[j]

theorem refinesStack_nil (s : State) : RefinesStack s.regs[7].toNat s s.regs [] where
  regs _ _ := rfl
  sp := rfl
  stack _ h := absurd h (Nat.not_lt_zero _)

/-- The operand byte of a stack operation names its register. -/
theorem regByte_names (r : RegId) (h : (BitVec.ofNat 8 r.val).toNat < 8) : ⟨(BitVec.ofNat 8 r.val).toNat, h⟩ = r :=
  Fin.ext ((BitVec.toNat_ofNat _ _).trans (Nat.mod_eq_of_lt (by omega)))

theorem spDown_regs_of_ne (s : State) {i : RegId} (hi : i ≠ 7) : s.spDown.regs[i] = s.regs[i] :=
  (spDown_regs_get i).trans (if_neg fun h => hi (Fin.ext h))

theorem spUp_regs_of_ne (s : State) {i : RegId} (hi : i ≠ 7) : s.spUp.regs[i] = s.regs[i] :=
  (writeReg_regs_get s Config.spIndex i _).trans (if_neg (Ne.symm hi))

variable {base : Nat} {s t : State} {g : Vector Byte 8} {st : List Byte} {r : RegId}

/-- What a PUSH of another register than SP leaves, as the stack sees it. -/
theorem Completes.push_leaves (hr : r ≠ 7) (h : Completes (StackOp.push r).instr s t) :
    (∀ i : RegId, i ≠ 7 → t.regs[i] = s.regs[i]) ∧ t.regs[7].toNat + 1 = s.regs[7].toNat ∧
      t.byteAt t.regs[7].toNat = s.regs[r] ∧ ∀ a, a ≠ t.regs[7].toNat → t.byteAt a = s.byteAt a := by
  cases h.effect with
  | push hlt _ hne =>
    have hdown := spDown_sp_toNat (s := s)
    have hval : s.spDown.regs[(BitVec.ofNat 8 r.val).toNat] = s.regs[r] :=
      (congrArg (fun i : RegId => s.spDown.regs[i]) (regByte_names r hlt)).trans (spDown_regs_of_ne s hr)
    refine ⟨fun i hi => spDown_regs_of_ne s hi, ?_, (byteAt_setByte _ _ _ _).trans ((if_pos rfl).trans hval),
      fun a ha => (byteAt_setByte _ _ _ _).trans (if_neg (Ne.symm ha))⟩
    simp only [advance_regs, setByte_regs]
    omega

/-- What a POP to another register than SP leaves, as the stack sees it. -/
theorem Completes.pop_leaves (hr : r ≠ 7) (h : Completes (StackOp.pop r).instr s t) :
    (∀ i : RegId, i ≠ 7 → t.regs[i] = (s.regs.set r (s.byteAt s.regs[7].toNat))[i]) ∧
      t.regs[7].toNat = s.regs[7].toNat + 1 ∧ ∀ a, t.byteAt a = s.byteAt a := by
  cases h.effect with
  | pop hlt hsp hne =>
    rw [regByte_names r hlt] at hne ⊢
    have hkept := writeReg_sp_of_ne (s := s) (i := r) (fun h => hr (Fin.ext h)) (s.byteAt s.regs[7].toNat)
    refine ⟨fun i hi => spUp_regs_of_ne _ hi, ?_, fun a => rfl⟩
    rw [advance_regs, spUp_sp_toNat hne, hkept]

theorem RefinesStack.push (h : RefinesStack base s g st) (hr : r ≠ 7) (hc : Completes (StackOp.push r).instr s t) :
    RefinesStack base t g (g[r] :: st) := by
  obtain ⟨hregs, hsp, htop, hbelow⟩ := hc.push_leaves hr
  refine ⟨fun i hi => (hregs i hi).trans (h.regs i hi), ?sp, ?stack⟩
  case sp =>
    have hbase := h.sp
    rw [List.length_cons]
    omega
  case stack =>
    intro j hj
    cases j with
    | zero => exact htop.trans (h.regs r hr)
    | succ j =>
      have haddr : t.regs[7].toNat + (j + 1) = s.regs[7].toNat + j := by omega
      rw [hbelow _ (by omega), haddr]
      exact h.stack j (Nat.lt_of_succ_lt_succ hj)

theorem RefinesStack.pop {v : Byte} (h : RefinesStack base s g (v :: st)) (hr : r ≠ 7)
    (hc : Completes (StackOp.pop r).instr s t) : RefinesStack base t (g.set r v) st := by
  obtain ⟨hregs, hsp, hmem⟩ := hc.pop_leaves hr
  have htop : s.byteAt s.regs[7].toNat = v := h.stack 0 (Nat.succ_pos _)
  refine ⟨fun i hi => ?regs, ?sp, fun j hj => ?stack⟩
  case regs =>
    have hi' := h.regs i hi
    rw [hregs i hi, htop]
    simp only [Fin.getElem_fin, Vector.getElem_set] at hi' ⊢
    rw [hi']
  case sp =>
    have hbase := h.sp
    rw [List.length_cons] at hbase
    omega
  case stack =>
    have haddr : t.regs[7].toNat + j = s.regs[7].toNat + (j + 1) := by omega
    rw [hmem, haddr]
    exact h.stack (j + 1) (Nat.succ_lt_succ hj)

theorem RefinesStack.runsTo {ops : List StackOp} {g' : Vector Byte 8} {st' : List Byte}
    (h : RefinesStack base s g st) (hops : ∀ op ∈ ops, op.reg ≠ 7) (hghost : ghostRun ops g st = some (g', st'))
    (hrun : RunsTo (ops.map StackOp.instr) s t) : RefinesStack base t g' st' := by
  induction ops generalizing s g st with
  | nil =>
    cases hghost
    cases hrun
    exact h
  | cons op ops ih =>
    obtain ⟨u, hfirst, hrest⟩ := hrun
    obtain ⟨hop, htail⟩ := List.forall_mem_cons.1 hops
    cases op with
    | push r => exact ih (h.push hop hfirst) htail hghost hrest
    | pop r =>
      cases st with
      | nil => cases hghost
      | cons v st => exact ih (h.pop hop hfirst) htail hghost hrest

/-- Settles O45: the empty stack is refined at the start, and every PUSH and POP keeps the refinement. -/
theorem stackSequenceIsLifo : Obligations.StackSequenceIsLifo := by
  unfold Obligations.StackSequenceIsLifo
  intro ops s t g st hops hghost hrun
  obtain ⟨hregs, hsp, hstack⟩ := (refinesStack_nil s).runsTo hops hghost hrun
  exact ⟨hregs, hsp, hstack⟩

end Sys2Proof.Machine
end

section
/-! The host's moves, reads and status output (00_scope.md R16 to R19; 70_reset_and_hazards.md R108, R112). -/

namespace Sys2Proof

theorem NonzeroInt.toInt_ne_zero (n : NonzeroInt) : n.toInt ≠ 0 := by
  cases n <;> simp only [NonzeroInt.toInt] <;> omega

namespace Machine

theorem loadImage_of_idle {s : State} {image : List Byte} (hs : s.status = .idle) :
    loadImage image s = if image.length ≤ 256 then .next { s with mem := s.mem.deposit 0 image }
      else .refused .imageTooLong := by simp only [loadImage, hs]

theorem loadImage_of_not_idle {s : State} (image : List Byte) (hs : s.status ≠ .idle) :
    loadImage image s = .refused .loadOutsideIdle := by
  unfold loadImage
  cases h : s.status with
  | idle => exact absurd h hs
  | running | halted | faulted => rfl

theorem requestRun_of_idle {s : State} (hs : s.status = .idle) : requestRun s = { s with status := .running } := by
  simp only [requestRun, hs, State.setStatus]

theorem requestRun_of_not_idle {s : State} (hs : s.status ≠ .idle) : requestRun s = s := by
  unfold requestRun
  cases h : s.status with
  | idle => exact absurd h hs
  | running | halted | faulted => rfl

/-- The machine after the boot order with an image (R108). -/
def State.booted (image : List Byte) : State :=
  { State.reset with status := .running, mem := State.reset.mem.deposit 0 image }

theorem boot_of_fits {image : List Byte} (h : image.length ≤ 256) : boot image = .next (State.booted image) := by
  simp only [boot, loadImage_of_idle (s := State.reset) rfl, if_pos h]
  exact congrArg Host.Outcome.next (requestRun_of_idle rfl)

/-- The image stands at the addresses below its length, and above it every cell is as it was (R45). -/
theorem booted_byteAt {image : List Byte} (h : image.length ≤ 256) (a : Nat) :
    (State.booted image).byteAt a = if ha : a < image.length then image[a] else Config.initMem a := by
  have hread := Memory.read_deposit image State.reset.mem 0 a (by omega)
  simp only [Nat.zero_le, true_and, Nat.zero_add, Nat.sub_zero] at hread
  exact hread

theorem booted_inv (image : List Byte) : (State.booted image).Inv :=
  State.inv_of_no_record (Memory.deposit_wf image _ 0 reset_mem_wf) (by simp [State.booted, State.reset]) rfl rfl
    RunStatus.noConfusion

/-- Settles O3: the load deposits the image in the reset state's memory, and `run` changes the status alone. -/
theorem bootLoadsImageAndRuns : Obligations.BootLoadsImageAndRuns := by
  unfold Obligations.BootLoadsImageAndRuns
  intro image h
  refine ⟨State.booted image, boot_of_fits h, rfl, booted_inv image, fun a ha => ?_, fun a ha => ?_⟩
  · rw [booted_byteAt h, dif_pos ha]
  · rw [booted_byteAt h, dif_neg (Nat.not_lt_of_le ha)]

/-- Settles O4: load and `run` are decided by the status, and in Idle the load by the length. -/
theorem hostMovesOnlyFromIdle : Obligations.HostMovesOnlyFromIdle := by
  unfold Obligations.HostMovesOnlyFromIdle
  exact ⟨fun _ => loadImage_of_not_idle,
    fun _ _ hs hlong => (loadImage_of_idle hs).trans (if_neg (Nat.not_le_of_lt hlong)),
    fun _ => requestRun_of_idle, fun _ => requestRun_of_not_idle⟩

/-! ### The status output -/

/-- Settles O5: one case per status, and the free number of a fault is of a type without 0 (R13). -/
theorem exitStatusZeroOnlyAfterHalt : Obligations.ExitStatusZeroOnlyAfterHalt := by
  unfold Obligations.ExitStatusZeroOnlyAfterHalt
  intro s
  have hfault := Config.faultExitStatus.toInt_ne_zero
  cases hs : s.status with
  | idle | running | halted => simp [exitStatus, hs]
  | faulted => simp [exitStatus, hs, hfault]

/-! ### The reads -/

theorem hostFault_of_faulted {s : State} (hs : s.status = .faulted) : hostFault s = .ok s.fault := by
  simp only [hostFault, hs]

theorem hostFault_of_not_faulted {s : State} (hs : s.status ≠ .faulted) : hostFault s = .error .noFaultToRead := by
  unfold hostFault
  cases h : s.status with
  | faulted => exact absurd h hs
  | idle | running | halted => rfl

/-- Settles O49: every read but that of the record is `hostRead`, which asks only whether the block has stopped. -/
theorem hostReadsOnlyWhenStopped : Obligations.HostReadsOnlyWhenStopped := by
  unfold Obligations.HostReadsOnlyWhenStopped
  refine fun s => ⟨fun hs => ?_, fun hs => ?_, hostFault_of_faulted, hostFault_of_not_faulted⟩
  · have hnot : ¬(s.status = .halted ∨ s.status = .faulted) := by
      obtain h | h := hs <;> simp [h]
    exact ⟨fun _ => hostRead_not_stopped hnot _, fun _ => hostRead_not_stopped hnot _, hostRead_not_stopped hnot _,
      hostRead_not_stopped hnot _, hostRead_not_stopped hnot _⟩
  · exact ⟨fun _ => hostRead_stopped hs _, fun _ => hostRead_stopped hs _, hostRead_stopped hs _, hostRead_stopped hs _,
      hostRead_stopped hs _⟩

end Machine
end Sys2Proof
end

section
/-! The canonical form of memory lists a byte for an address in one way only (20_memory.md R36). -/

namespace Sys2Proof.Machine

theorem Memory.wfFrom_cons {lo a : Nat} {v : Byte} {m : Memory} :
    Memory.wfFrom lo ((a, v) :: m) = true ↔ (lo ≤ a ∧ a < 256) ∧ Memory.wfFrom (a + 1) m = true := by
  simp [Memory.wfFrom]

theorem Memory.lookup_cons_self (a : Nat) (v : Byte) (m : Memory) : Memory.lookup ((a, v) :: m) a = some v := by
  simp [Memory.lookup]

theorem Memory.lookup_cons_of_ne {a b : Nat} (h : b ≠ a) (v : Byte) (m : Memory) :
    Memory.lookup ((b, v) :: m) a = m.lookup a := by
  simp [Memory.lookup, h]

/-- Below its first possible address a memory in rising order lists nothing. -/
theorem Memory.lookup_of_lt {lo a : Nat} {m : Memory} (hm : m.wfFrom lo = true) (ha : a < lo) : m.lookup a = none := by
  induction m generalizing lo with
  | nil => rfl
  | cons c m ih =>
    obtain ⟨b, v⟩ := c
    obtain ⟨⟨hlo, _⟩, htail⟩ := Memory.wfFrom_cons.1 hm
    rw [Memory.lookup_cons_of_ne (by omega)]
    exact ih htail (by omega)

/-- The first listed address is the least listed one, so it is listed no later in an equal lookup. -/
theorem Memory.head_le_head {lo a b : Nat} {v w : Byte} {m m' : Memory} (hm' : Memory.wfFrom lo ((b, w) :: m') = true)
    (h : ∀ x, Memory.lookup ((a, v) :: m) x = Memory.lookup ((b, w) :: m') x) : b ≤ a := by
  obtain ⟨⟨_, hb⟩, htail⟩ := Memory.wfFrom_cons.1 hm'
  by_contra hlt
  have hnone : Memory.lookup ((b, w) :: m') a = none :=
    Memory.lookup_of_lt (Memory.wfFrom_cons.2 ⟨⟨le_refl b, hb⟩, htail⟩) (Nat.lt_of_not_le hlt)
  rw [← h, Memory.lookup_cons_self] at hnone
  cases hnone

theorem Memory.eq_of_lookup_eq {lo : Nat} {m m' : Memory} (hm : m.wfFrom lo = true) (hm' : m'.wfFrom lo = true)
    (h : ∀ a, m.lookup a = m'.lookup a) : m = m' := by
  induction m generalizing lo m' with
  | nil =>
    cases m' with
    | nil => rfl
    | cons c m' => cases (h c.1).trans (Memory.lookup_cons_self c.1 c.2 m')
  | cons c m ih =>
    obtain ⟨a, v⟩ := c
    cases m' with
    | nil => cases (h a).symm.trans (Memory.lookup_cons_self a v m)
    | cons c' m' =>
      obtain ⟨b, w⟩ := c'
      obtain rfl : a = b := Nat.le_antisymm (Memory.head_le_head hm fun x => (h x).symm) (Memory.head_le_head hm' h)
      have hhead := h a
      rw [Memory.lookup_cons_self, Memory.lookup_cons_self] at hhead
      cases hhead
      obtain ⟨_, htail⟩ := Memory.wfFrom_cons.1 hm
      obtain ⟨_, htail'⟩ := Memory.wfFrom_cons.1 hm'
      have hrest : m = m' := ih htail htail' fun x => by
        by_cases hx : a = x
        · rw [Memory.lookup_of_lt htail (by omega), Memory.lookup_of_lt htail' (by omega)]
        · rw [← Memory.lookup_cons_of_ne hx v m, ← Memory.lookup_cons_of_ne hx v m']
          exact h x
      rw [hrest]

/-- Settles O48: two lists in rising order with equal lookups have the same head, and then the same rest. -/
theorem canonicalMemoryIsUnique : Obligations.CanonicalMemoryIsUnique := by
  unfold Obligations.CanonicalMemoryIsUnique
  exact fun _ _ => Memory.eq_of_lookup_eq

end Sys2Proof.Machine
end

section
/-! The register fields are checked before anything else, and what taking a fault writes (40_fetch_decode_dispatch.md R64,
60_exceptions.md R98). -/

namespace Sys2Proof.Machine

/-- Whether a register field names no register. -/
abbrev fieldOutside (f : Byte) : Bool := decide (8 ≤ f.toNat)

theorem find?_outside_one {r f : Byte} (h : [r].find? fieldOutside = some f) : f = r ∧ 8 ≤ r.toNat := by
  obtain rfl := List.mem_singleton.1 (List.mem_of_find?_eq_some h)
  have hout : fieldOutside f = true := List.find?_some h
  exact ⟨rfl, of_decide_eq_true hout⟩

theorem find?_outside_two {a b f : Byte} (h : [a, b].find? fieldOutside = some f) :
    (f = a ∧ 8 ≤ a.toNat) ∨ (a.toNat < 8 ∧ f = b ∧ 8 ≤ b.toNat) := by
  by_cases ha : 8 ≤ a.toNat
  · have hout : fieldOutside a = true := decide_eq_true ha
    rw [List.find?_cons_of_pos hout] at h
    cases h
    exact .inl ⟨rfl, ha⟩
  · have hin : ¬ fieldOutside a = true := by simpa using ha
    rw [List.find?_cons_of_neg hin] at h
    exact .inr ⟨Nat.lt_of_not_le ha, find?_outside_one h⟩

/-- A body that begins with the check of a field raises that field's fault, whatever comes after (R64). -/
theorem commit_field_outside (s : State) {r : Byte} (k : RegId → Except FaultCause State) (hr : 8 ≤ r.toNat) :
    commit s (regField r >>= k) = .next (takeFault (.outOfBounds .reg r.toNat) s) := by
  rw [regField_outside hr]
  rfl

theorem commit_find?_outside_one {s : State} {r f : Byte} (k : RegId → Except FaultCause State)
    (h : [r].find? fieldOutside = some f) :
    commit s (regField r >>= k) = .next (takeFault (.outOfBounds .reg f.toNat) s) := by
  obtain ⟨rfl, hr⟩ := find?_outside_one h
  exact commit_field_outside s k hr

/-- ADD, MUL and CMP check the second field only when the first names a register (D10). -/
theorem commit_aluInstr_outside {s : State} {a b f : Byte} (op : AluOp) (h : [a, b].find? fieldOutside = some f) :
    commit s (aluInstr op a b s) = .next (takeFault (.outOfBounds .reg f.toNat) s) := by
  obtain ⟨rfl, ha⟩ | ⟨ha, rfl, hb⟩ := find?_outside_two h
  · exact commit_field_outside s _ ha
  · rw [aluInstr, regField_inside ha]
    exact commit_field_outside s _ hb

theorem raises_of_field_outside {i : Instr} {s : State} {f : Byte} (h : (registerFields i).find? fieldOutside = some f) :
    Raises i s (.outOfBounds .reg f.toNat) := by
  cases i with
  | hlt | ret => cases h
  | ldi | prn | push | pop | call | jmp | jeq | jne => exact commit_find?_outside_one _ h
  | add a b => exact commit_aluInstr_outside .add h
  | mul a b => exact commit_aluInstr_outside .mul h
  | cmp a b => exact commit_aluInstr_outside .cmp h

theorem wellFormed_eq_all (i : Instr) : i.wellFormed = (registerFields i).all regFieldOk := by
  cases i <;> simp [Instr.wellFormed, registerFields]

theorem wellFormed_iff_no_field_outside (i : Instr) :
    i.wellFormed = true ↔ (registerFields i).find? fieldOutside = none := by
  simp [wellFormed_eq_all, regFieldOk]

/-- Settles O16: every body begins with the checks of its fields in order. -/
theorem registerFieldsCheckedFirst : Obligations.RegisterFieldsCheckedFirst := by
  unfold Obligations.RegisterFieldsCheckedFirst
  exact fun i _ => ⟨fun _ => raises_of_field_outside, wellFormed_iff_no_field_outside i⟩

/-- Settles O17: the status and the record of each cause, written out. -/
theorem faultEntryRecordsAndKeepsRest : Obligations.FaultEntryRecordsAndKeepsRest := by
  unfold Obligations.FaultEntryRecordsAndKeepsRest
  exact fun _ _ _ _ _ => ⟨rfl, rfl, rfl, rfl, rfl⟩

end Sys2Proof.Machine
end
